-- ==== Sys2Proof/Word.lean ====
section
/-! DEFINITION. The two data widths the document fixes: a Word is 256 bits, an opcode or code byte is 8
(00_scope R6). All values are unsigned (41_arithmetic R80). -/

namespace Sys2Proof

/-- A Word: an unsigned integer in [0, 2^256), the machine's only data type (R16, R80). -/
abbrev Word := BitVec 256

/-- A byte of the code space (R30). -/
abbrev Byte := BitVec 8

end Sys2Proof
end

