-- ==== Sys2Proof/Config.lean ====
section
/-! DEFINITION. The named parameters of 00_scope R6 and what the host supplies to a run (70_reset R181, R183).
The parameters are configuration, fixed for one machine: no step writes them (log entry 1). -/

namespace Sys2Proof

/-- The sizes the document leaves open (00_scope R6). -/
structure Config where
  /-- `PCW`, the width of `pc` and `code_len` in bits (92 D2). -/
  pcWidth : Nat
  /-- `GASW`, the width of the gas register in bits (92 D1). -/
  gasWidth : Nat
  /-- `STACK_DEPTH`, the number of registers of the operand stack (92 D3). -/
  stackDepth : Nat
  /-- `G_PUSHN`, the gas cost of each of PUSH2 to PUSH32 (92 D4). -/
  gPushN : Nat
  deriving DecidableEq, Repr

/-- The spec's own defaults (00_scope R6; DESIGN CHOICE of the spec, D1 to D4). -/
def Config.default : Config :=
  { pcWidth := 16, gasWidth := 64, stackDepth := 1024, gPushN := 3 }

/-- `CODE_MAX = 2^PCW - 1` (00_scope R6). -/
def Config.codeMax (c : Config) : Nat := 2 ^ c.pcWidth - 1

/-- What the host supplies before it releases reset, with the machine it supplies it to (R181, R183). -/
structure HostInput where
  cfg        : Config
  bytecode   : List Byte
  initialGas : Nat
  deriving DecidableEq, Repr

/-- The host preconditions of 70_reset R184: an input outside them cannot be presented to the hardware. -/
abbrev HostInput.admissible (h : HostInput) : Prop :=
  h.bytecode.length ≤ h.cfg.codeMax ∧ h.initialGas < 2 ^ h.cfg.gasWidth

end Sys2Proof
end

