-- ==== Sys2Proof/Machine/State.lean ====
section
/-! DEFINITION. The machine's state (10_state R10) as plain data, the reasons a step can stop, and the state after reset
(10_state R21). -/

namespace Sys2Proof.Machine

/-- The failure kinds of 60_exceptions R150. -/
inductive FailureKind where
  /-- R151 -/
  | outOfGas
  /-- R152 -/
  | stackUnderflow
  /-- R153 -/
  | invalidOpcode
  /-- R154 -/
  | unexpectedEndOfBytecode
  /-- R155 -/
  | stackOverflow
  deriving DecidableEq, Repr

/-- The state of the execution loop (10_state R14). Its 5-bit word is `Status.word` (Flags.lean). -/
inductive Status where
  | running
  /-- `Halted(Success)` -/
  | success
  /-- `Halted(Failure(kind))` -/
  | failure (kind : FailureKind)
  deriving DecidableEq, Repr

/-- Why the model stops. The machine's own failures are no faults: they are next states (60_exceptions R156). -/
inductive Fault where
  /-- A code read at an address at or past `code_len`, which does not exist (20_memory R31). Raised by `fetch`'s opcode read.
  The end-of-code test stands before every fetch, so no step raises it. Safe: the model stops where the spec has no effect. -/
  | codeReadOutOfRange (addr : Nat)
  deriving DecidableEq, Repr

/-- Why an instruction has no meaning. -/
inductive Refusal where
  /-- The instruction's arm in `exec` has no meaning yet. No arm answers it: all 37 instructions are modelled. Safe. -/
  | notModelled (mnemonic : String)
  deriving DecidableEq, Repr

/-- The code space's bytes: cells in strictly rising address order, none of them holding `unlisted`. -/
abbrev Memory := List Host.Cell

/-- What an address of the code space that no cell lists holds: the byte 00H (DESIGN CHOICE, log entry 10). -/
def unlisted : Byte := 0x00

/-- The whole state of the machine (10_state R10). -/
structure State where
  /-- the parameters of 00_scope R6, written by no step (log entry 1) -/
  cfg     : Config
  /-- the code space (20_memory R30), written by no step (R32) -/
  code    : Memory
  /-- `code_len` (10_state R15) -/
  codeLen : Nat
  /-- `pc` (10_state R12) -/
  pc      : Nat
  /-- `gas` (10_state R13) -/
  gas     : Nat
  /-- the live Words of the operand stack, bottom first (10_state R11, R24) -/
  stack   : List Word
  /-- `status` (10_state R14) -/
  status  : Status
  deriving DecidableEq, Repr

/-- The machine right after reset (10_state R21, 70_reset R180), with the parameters at the spec's defaults and nothing placed
in the code space (log entry 3). The spec gives `gas` as the host's `initial_gas`; here it is the largest budget R184 admits
(DESIGN CHOICE, log entry 2). Every other input of the host: `resetWith` (Ops.lean). -/
def State.reset : State :=
  { cfg := Config.default, code := [], codeLen := 0, pc := 0, gas := 2 ^ 64 - 1, stack := [], status := .running }

end Sys2Proof.Machine
end

