-- ==== Sys2Proof/Machine/Memory.lean ====
section
/-! DEFINITION. The code space (20_memory R30 to R32): reading and placing bytes, and the canonical form of its cells. -/

namespace Sys2Proof.Machine

/-- The byte at an address. -/
def Memory.read (m : Memory) (a : Nat) : Byte :=
  match m with
  | [] => unlisted
  | (b, v) :: rest => if b = a then v else Memory.read rest a

/-- The cells without the one at `a`. -/
def Memory.erase (m : Memory) (a : Nat) : Memory :=
  match m with
  | [] => []
  | (b, v) :: rest => if b = a then Memory.erase rest a else (b, v) :: Memory.erase rest a

/-- The cells with `v` at `a`, in address order. -/
def Memory.insert (m : Memory) (a : Nat) (v : Byte) : Memory :=
  match m with
  | [] => [(a, v)]
  | (b, w) :: rest =>
    if a < b then (a, v) :: (b, w) :: rest
    else if a = b then (a, v) :: rest
    else (b, w) :: Memory.insert rest a v

/-- Place one byte, keeping the canonical form: the byte an unlisted address holds is not listed. Only the host places bytes
(70_reset R183); the core never writes the code space (R32). -/
def Memory.write (m : Memory) (a : Nat) (v : Byte) : Memory :=
  if v = unlisted then Memory.erase m a else Memory.insert m a v

/-- Place bytes at rising addresses from `a`. -/
def Memory.place (m : Memory) (a : Nat) (bs : List Byte) : Memory :=
  match bs with
  | [] => m
  | b :: rest => Memory.place (Memory.write m a b) (a + 1) rest

/-- The canonical form: addresses strictly rising, and no cell holding what an unlisted address holds. -/
abbrev Memory.wf (m : Memory) : Prop :=
  m.Pairwise (fun c d => c.1 < d.1) ∧ ∀ c ∈ m, c.2 ≠ unlisted

/-- `Code(a)` (20_memory R31): the byte at `a`, for `a < code_len` only. -/
def codeByte (s : State) (a : Nat) : Option Byte :=
  if a < s.codeLen then some (Memory.read s.code a) else none

end Sys2Proof.Machine
end

