-- ==== Sys2Proof/Syntax.lean ====
section
/-! DEFINITION. The instructions: one constructor per row of spec/opcode_table.json (30_encoding R51). -/

namespace Sys2Proof

/-- The 37 instructions (00_scope R2). A PUSHn carries its immediate as the Word it denotes (30_encoding R49); that it fits
in n bytes is `Instr.wf` (WellFormed.lean). -/
inductive Instr where
  /-- 0x00 (43_control R140) -/
  | stop
  /-- 0x01 (41_arithmetic R86) -/
  | add
  /-- 0x02 (41_arithmetic R87) -/
  | mul
  /-- 0x03 (41_arithmetic R88) -/
  | sub
  /-- 0x04 (41_arithmetic R89) -/
  | div
  /-- 0x60 (42_push R102) -/
  | push1 (imm : Word)
  /-- 0x61 (42_push R103) -/
  | push2 (imm : Word)
  /-- 0x62 (42_push R104) -/
  | push3 (imm : Word)
  /-- 0x63 (42_push R105) -/
  | push4 (imm : Word)
  /-- 0x64 (42_push R106) -/
  | push5 (imm : Word)
  /-- 0x65 (42_push R107) -/
  | push6 (imm : Word)
  /-- 0x66 (42_push R108) -/
  | push7 (imm : Word)
  /-- 0x67 (42_push R109) -/
  | push8 (imm : Word)
  /-- 0x68 (42_push R110) -/
  | push9 (imm : Word)
  /-- 0x69 (42_push R111) -/
  | push10 (imm : Word)
  /-- 0x6A (42_push R112) -/
  | push11 (imm : Word)
  /-- 0x6B (42_push R113) -/
  | push12 (imm : Word)
  /-- 0x6C (42_push R114) -/
  | push13 (imm : Word)
  /-- 0x6D (42_push R115) -/
  | push14 (imm : Word)
  /-- 0x6E (42_push R116) -/
  | push15 (imm : Word)
  /-- 0x6F (42_push R117) -/
  | push16 (imm : Word)
  /-- 0x70 (42_push R118) -/
  | push17 (imm : Word)
  /-- 0x71 (42_push R119) -/
  | push18 (imm : Word)
  /-- 0x72 (42_push R120) -/
  | push19 (imm : Word)
  /-- 0x73 (42_push R121) -/
  | push20 (imm : Word)
  /-- 0x74 (42_push R122) -/
  | push21 (imm : Word)
  /-- 0x75 (42_push R123) -/
  | push22 (imm : Word)
  /-- 0x76 (42_push R124) -/
  | push23 (imm : Word)
  /-- 0x77 (42_push R125) -/
  | push24 (imm : Word)
  /-- 0x78 (42_push R126) -/
  | push25 (imm : Word)
  /-- 0x79 (42_push R127) -/
  | push26 (imm : Word)
  /-- 0x7A (42_push R128) -/
  | push27 (imm : Word)
  /-- 0x7B (42_push R129) -/
  | push28 (imm : Word)
  /-- 0x7C (42_push R130) -/
  | push29 (imm : Word)
  /-- 0x7D (42_push R131) -/
  | push30 (imm : Word)
  /-- 0x7E (42_push R132) -/
  | push31 (imm : Word)
  /-- 0x7F (42_push R133) -/
  | push32 (imm : Word)
  deriving DecidableEq, Repr

end Sys2Proof
end

