-- ==== Sys2Proof/WellFormed.lean ====
section
/-! DEFINITION. The two parts of an instruction after its opcode, and the one check on an instruction: the immediate of a
PUSHn is a value v with 0 <= v < 2^(8n) (30_encoding R49, R56). -/

namespace Sys2Proof

/-- How many immediate bytes follow the opcode (30_encoding R45, R51). -/
def Instr.immBytes (i : Instr) : Nat :=
  match i with
  | .stop => 0
  | .add => 0
  | .mul => 0
  | .sub => 0
  | .div => 0
  | .push1 _ => 1
  | .push2 _ => 2
  | .push3 _ => 3
  | .push4 _ => 4
  | .push5 _ => 5
  | .push6 _ => 6
  | .push7 _ => 7
  | .push8 _ => 8
  | .push9 _ => 9
  | .push10 _ => 10
  | .push11 _ => 11
  | .push12 _ => 12
  | .push13 _ => 13
  | .push14 _ => 14
  | .push15 _ => 15
  | .push16 _ => 16
  | .push17 _ => 17
  | .push18 _ => 18
  | .push19 _ => 19
  | .push20 _ => 20
  | .push21 _ => 21
  | .push22 _ => 22
  | .push23 _ => 23
  | .push24 _ => 24
  | .push25 _ => 25
  | .push26 _ => 26
  | .push27 _ => 27
  | .push28 _ => 28
  | .push29 _ => 29
  | .push30 _ => 30
  | .push31 _ => 31
  | .push32 _ => 32

/-- The immediate; 0 for the format `OP`, which has none (30_encoding R46). -/
def Instr.imm (i : Instr) : Word :=
  match i with
  | .stop => 0
  | .add => 0
  | .mul => 0
  | .sub => 0
  | .div => 0
  | .push1 v => v
  | .push2 v => v
  | .push3 v => v
  | .push4 v => v
  | .push5 v => v
  | .push6 v => v
  | .push7 v => v
  | .push8 v => v
  | .push9 v => v
  | .push10 v => v
  | .push11 v => v
  | .push12 v => v
  | .push13 v => v
  | .push14 v => v
  | .push15 v => v
  | .push16 v => v
  | .push17 v => v
  | .push18 v => v
  | .push19 v => v
  | .push20 v => v
  | .push21 v => v
  | .push22 v => v
  | .push23 v => v
  | .push24 v => v
  | .push25 v => v
  | .push26 v => v
  | .push27 v => v
  | .push28 v => v
  | .push29 v => v
  | .push30 v => v
  | .push31 v => v
  | .push32 v => v

/-- The instruction's length in bytes (30_encoding R48). -/
def Instr.length (i : Instr) : Nat := 1 + i.immBytes

/-- The immediate fits in its bytes: bits 255 down to 8n are zero (30_encoding R49). -/
abbrev Instr.wf (i : Instr) : Prop := i.imm.toNat < 2 ^ (8 * i.immBytes)

end Sys2Proof
end

