-- ==== Sys2Proof/Machine/Ops.lean ====
section
/-! DEFINITION. The operations every instruction shares: `raise` and `halt_success` (60_exceptions R156), the gas meter
(40_execution_loop R60), the stack primitives (R63, R64), the static costs (30_encoding R58), and reset by the host
(70_reset R180). An operation that can end the step answers `.stopped t`: the step ends in the state `t` (R70). -/

namespace Sys2Proof.Machine

/-- What one operation of a step answers: go on with a value, or the step has ended in a state (R70). -/
inductive Flow (α : Type) where
  | go (a : α)
  | stopped (t : State)
  deriving Repr

/-- `sp`, the number of live Words (10_state R11). -/
def State.sp (s : State) : Nat := s.stack.length

/-- `raise K`: the machine's one way of taking a failure (60_exceptions R156). It writes `status` and nothing else. -/
def raise (k : FailureKind) (s : State) : State := { s with status := .failure k }

/-- `halt_success`: `status <- Halted(Success)` (00_scope section 4.2). -/
def haltSuccess (s : State) : State := { s with status := .success }

/-- The fetch's increment: `pc` passes the opcode byte before anything else happens (40_execution_loop R66). -/
def passOpcode (s : State) : State := { s with pc := s.pc + 1 }

/-- `consume(amount)` (40_execution_loop R60). -/
def consume (amount : Nat) (s : State) : Flow State :=
  if s.gas < amount then .stopped (raise .outOfGas s)
  else .go { s with gas := s.gas - amount }

/-- `push(w)` (40_execution_loop R63). -/
def push (w : Word) (s : State) : Flow State :=
  if s.sp = s.cfg.stackDepth then .stopped (raise .stackOverflow s)
  else .go { s with stack := s.stack ++ [w] }

/-- The operands `pop_two` returns, and the state after it (40_execution_loop R64). -/
structure Popped where
  /-- the top: the more recently pushed -/
  n1 : Word
  /-- the second from top: pushed earlier -/
  n2 : Word
  after : State
  deriving DecidableEq, Repr

/-- `pop_two()` (40_execution_loop R64, R65): the depth test comes before any removal. -/
def popTwo (s : State) : Flow Popped :=
  match s.stack.reverse with
  | n1 :: n2 :: below => .go { n1 := n1, n2 := n2, after := { s with stack := below.reverse } }
  | _ => .stopped (raise .stackUnderflow s)

/-- The static gas cost of an instruction (30_encoding R58, 42_push R101): its opcode decides it, never an operand. -/
def staticCost (c : Config) (i : Instr) : Nat :=
  match i with
  | .stop => 0
  | .add => 3
  | .mul => 5
  | .sub => 3
  | .div => 5
  | .push1 _ => 3
  | .push2 _ => c.gPushN
  | .push3 _ => c.gPushN
  | .push4 _ => c.gPushN
  | .push5 _ => c.gPushN
  | .push6 _ => c.gPushN
  | .push7 _ => c.gPushN
  | .push8 _ => c.gPushN
  | .push9 _ => c.gPushN
  | .push10 _ => c.gPushN
  | .push11 _ => c.gPushN
  | .push12 _ => c.gPushN
  | .push13 _ => c.gPushN
  | .push14 _ => c.gPushN
  | .push15 _ => c.gPushN
  | .push16 _ => c.gPushN
  | .push17 _ => c.gPushN
  | .push18 _ => c.gPushN
  | .push19 _ => c.gPushN
  | .push20 _ => c.gPushN
  | .push21 _ => c.gPushN
  | .push22 _ => c.gPushN
  | .push23 _ => c.gPushN
  | .push24 _ => c.gPushN
  | .push25 _ => c.gPushN
  | .push26 _ => c.gPushN
  | .push27 _ => c.gPushN
  | .push28 _ => c.gPushN
  | .push29 _ => c.gPushN
  | .push30 _ => c.gPushN
  | .push31 _ => c.gPushN
  | .push32 _ => c.gPushN

/-- The machine after reset with the inputs the host drives (10_state R21, 70_reset R180, R181, R183). -/
def resetWith (h : HostInput) : State :=
  { cfg := h.cfg
    code := Memory.place [] 0 h.bytecode
    codeLen := h.bytecode.length
    pc := 0
    gas := h.initialGas
    stack := []
    status := .running }

/-- Asserting `rst` on a machine in any state: nothing of that state survives (70_reset R182, R186). -/
def hostReset (h : HostInput) (_ : State) : State := resetWith h

end Sys2Proof.Machine
end

