-- ==== Sys2Proof/Machine/Operands.lean ====
section
/-! DEFINITION. The machine's two operand forms, each with the sequence its instructions share: two Words from the stack
(41_arithmetic R90) and an immediate from the code space (42_push R100). -/

namespace Sys2Proof.Machine

open Host (Outcome)

/-- ADD, MUL, SUB and DIV: charge, pop two, compute, push (41_arithmetic R90). `f n1 n2` takes the top first. -/
def binaryOp (cost : Nat) (f : Word → Word → Word) (s : State) : Outcome State Fault Refusal :=
  match consume cost (passOpcode s) with
  | .stopped t => .next t
  | .go charged =>
    match popTwo charged with
    | .stopped t => .next t
    | .go p =>
      match push (f p.n1 p.n2) p.after with
      | .stopped t => .next t
      | .go done => .next done

/-- The immediate's length test (42_push R100): `raise UnexpectedEndOfBytecode` if fewer than `n` bytes remain from `pc`,
which is already past the opcode. -/
def requireImmediate (n : Nat) (s : State) : Flow State :=
  if s.codeLen - s.pc < n then .stopped (raise .unexpectedEndOfBytecode s)
  else .go s

/-- PUSHn: charge, test that the immediate is there, push it, pass it (42_push R100). `v` is the immediate the decoder
assembled (30_encoding R49); where the length test fails it is not used (log entry 7). -/
def pushOp (cost n : Nat) (v : Word) (s : State) : Outcome State Fault Refusal :=
  match consume cost (passOpcode s) with
  | .stopped t => .next t
  | .go charged =>
    match requireImmediate n charged with
    | .stopped t => .next t
    | .go present =>
      match push v present with
      | .stopped t => .next t
      | .go pushed => .next { pushed with pc := pushed.pc + n }

end Sys2Proof.Machine
end

