-- ==== Sys2Proof/Machine/Arithmetic.lean ====
section
/-! DEFINITION. Word arithmetic: the four laws (41_arithmetic R82 to R85), computed exactly and then reduced, and the meanings
of ADD, MUL, SUB and DIV (R86 to R89). -/

namespace Sys2Proof.Machine

open Host (Outcome)

/-- `add(x, y) = (x + y) mod 2^256` (41_arithmetic R82). -/
def wordAdd (x y : Word) : Word := BitVec.ofNat 256 (x.toNat + y.toNat)

/-- `sub(x, y) = (x - y) mod 2^256`, minuend `x`, subtrahend `y` (41_arithmetic R83). -/
def wordSub (x y : Word) : Word := BitVec.ofInt 256 ((x.toNat : Int) - (y.toNat : Int))

/-- `mul(x, y) = (x * y) mod 2^256` (41_arithmetic R84). -/
def wordMul (x y : Word) : Word := BitVec.ofNat 256 (x.toNat * y.toNat)

/-- `div(x, y)`, dividend `x`, divisor `y`: 0 if `y = 0`, else the truncated unsigned quotient (41_arithmetic R85). -/
def wordDiv (x y : Word) : Word := if y = 0 then 0 else BitVec.ofNat 256 (x.toNat / y.toNat)

/-- ADD (41_arithmetic R86). -/
def execAdd (s : State) : Outcome State Fault Refusal :=
  binaryOp (staticCost s.cfg .add) (fun n1 n2 => wordAdd n1 n2) s

/-- MUL (41_arithmetic R87). -/
def execMul (s : State) : Outcome State Fault Refusal :=
  binaryOp (staticCost s.cfg .mul) (fun n1 n2 => wordMul n1 n2) s

/-- SUB (41_arithmetic R88): the earlier-pushed Word is the minuend. -/
def execSub (s : State) : Outcome State Fault Refusal :=
  binaryOp (staticCost s.cfg .sub) (fun n1 n2 => wordSub n2 n1) s

/-- DIV (41_arithmetic R89): the earlier-pushed Word is the dividend, the top the divisor (90_conflicts C1). -/
def execDiv (s : State) : Outcome State Fault Refusal :=
  binaryOp (staticCost s.cfg .div) (fun n1 n2 => wordDiv n2 n1) s

end Sys2Proof.Machine
end

