-- ==== Sys2Proof/Machine/Control.lean ====
section
/-! DEFINITION. STOP (43_control R140), the machine's only control instruction (R143, R144). -/

namespace Sys2Proof.Machine

open Host (Outcome)

/-- STOP (43_control R140): `consume(0)`, then `halt_success`. -/
def execStop (s : State) : Outcome State Fault Refusal :=
  match consume (staticCost s.cfg .stop) (passOpcode s) with
  | .stopped t => .next t
  | .go charged => .next (haltSuccess charged)

end Sys2Proof.Machine
end

