-- ==== Sys2Proof/Machine/Push.lean ====
section
/-! DEFINITION. The PUSH family (42_push R100 to R135), one meaning per instruction over `pushOp`. -/

namespace Sys2Proof.Machine

open Host (Outcome)

/-- PUSH1 (42_push R102). -/
def execPush1 (imm : Word) (s : State) : Outcome State Fault Refusal :=
  pushOp (staticCost s.cfg (.push1 imm)) 1 imm s

/-- PUSH2 (42_push R103). -/
def execPush2 (imm : Word) (s : State) : Outcome State Fault Refusal :=
  pushOp (staticCost s.cfg (.push2 imm)) 2 imm s

/-- PUSH3 (42_push R104). -/
def execPush3 (imm : Word) (s : State) : Outcome State Fault Refusal :=
  pushOp (staticCost s.cfg (.push3 imm)) 3 imm s

/-- PUSH4 (42_push R105). -/
def execPush4 (imm : Word) (s : State) : Outcome State Fault Refusal :=
  pushOp (staticCost s.cfg (.push4 imm)) 4 imm s

/-- PUSH5 (42_push R106). -/
def execPush5 (imm : Word) (s : State) : Outcome State Fault Refusal :=
  pushOp (staticCost s.cfg (.push5 imm)) 5 imm s

/-- PUSH6 (42_push R107). -/
def execPush6 (imm : Word) (s : State) : Outcome State Fault Refusal :=
  pushOp (staticCost s.cfg (.push6 imm)) 6 imm s

/-- PUSH7 (42_push R108). -/
def execPush7 (imm : Word) (s : State) : Outcome State Fault Refusal :=
  pushOp (staticCost s.cfg (.push7 imm)) 7 imm s

/-- PUSH8 (42_push R109). -/
def execPush8 (imm : Word) (s : State) : Outcome State Fault Refusal :=
  pushOp (staticCost s.cfg (.push8 imm)) 8 imm s

/-- PUSH9 (42_push R110). -/
def execPush9 (imm : Word) (s : State) : Outcome State Fault Refusal :=
  pushOp (staticCost s.cfg (.push9 imm)) 9 imm s

/-- PUSH10 (42_push R111). -/
def execPush10 (imm : Word) (s : State) : Outcome State Fault Refusal :=
  pushOp (staticCost s.cfg (.push10 imm)) 10 imm s

/-- PUSH11 (42_push R112). -/
def execPush11 (imm : Word) (s : State) : Outcome State Fault Refusal :=
  pushOp (staticCost s.cfg (.push11 imm)) 11 imm s

/-- PUSH12 (42_push R113). -/
def execPush12 (imm : Word) (s : State) : Outcome State Fault Refusal :=
  pushOp (staticCost s.cfg (.push12 imm)) 12 imm s

/-- PUSH13 (42_push R114). -/
def execPush13 (imm : Word) (s : State) : Outcome State Fault Refusal :=
  pushOp (staticCost s.cfg (.push13 imm)) 13 imm s

/-- PUSH14 (42_push R115). -/
def execPush14 (imm : Word) (s : State) : Outcome State Fault Refusal :=
  pushOp (staticCost s.cfg (.push14 imm)) 14 imm s

/-- PUSH15 (42_push R116). -/
def execPush15 (imm : Word) (s : State) : Outcome State Fault Refusal :=
  pushOp (staticCost s.cfg (.push15 imm)) 15 imm s

/-- PUSH16 (42_push R117). -/
def execPush16 (imm : Word) (s : State) : Outcome State Fault Refusal :=
  pushOp (staticCost s.cfg (.push16 imm)) 16 imm s

/-- PUSH17 (42_push R118). -/
def execPush17 (imm : Word) (s : State) : Outcome State Fault Refusal :=
  pushOp (staticCost s.cfg (.push17 imm)) 17 imm s

/-- PUSH18 (42_push R119). -/
def execPush18 (imm : Word) (s : State) : Outcome State Fault Refusal :=
  pushOp (staticCost s.cfg (.push18 imm)) 18 imm s

/-- PUSH19 (42_push R120). -/
def execPush19 (imm : Word) (s : State) : Outcome State Fault Refusal :=
  pushOp (staticCost s.cfg (.push19 imm)) 19 imm s

/-- PUSH20 (42_push R121). -/
def execPush20 (imm : Word) (s : State) : Outcome State Fault Refusal :=
  pushOp (staticCost s.cfg (.push20 imm)) 20 imm s

/-- PUSH21 (42_push R122). -/
def execPush21 (imm : Word) (s : State) : Outcome State Fault Refusal :=
  pushOp (staticCost s.cfg (.push21 imm)) 21 imm s

/-- PUSH22 (42_push R123). -/
def execPush22 (imm : Word) (s : State) : Outcome State Fault Refusal :=
  pushOp (staticCost s.cfg (.push22 imm)) 22 imm s

/-- PUSH23 (42_push R124). -/
def execPush23 (imm : Word) (s : State) : Outcome State Fault Refusal :=
  pushOp (staticCost s.cfg (.push23 imm)) 23 imm s

/-- PUSH24 (42_push R125). -/
def execPush24 (imm : Word) (s : State) : Outcome State Fault Refusal :=
  pushOp (staticCost s.cfg (.push24 imm)) 24 imm s

/-- PUSH25 (42_push R126). -/
def execPush25 (imm : Word) (s : State) : Outcome State Fault Refusal :=
  pushOp (staticCost s.cfg (.push25 imm)) 25 imm s

/-- PUSH26 (42_push R127). -/
def execPush26 (imm : Word) (s : State) : Outcome State Fault Refusal :=
  pushOp (staticCost s.cfg (.push26 imm)) 26 imm s

/-- PUSH27 (42_push R128). -/
def execPush27 (imm : Word) (s : State) : Outcome State Fault Refusal :=
  pushOp (staticCost s.cfg (.push27 imm)) 27 imm s

/-- PUSH28 (42_push R129). -/
def execPush28 (imm : Word) (s : State) : Outcome State Fault Refusal :=
  pushOp (staticCost s.cfg (.push28 imm)) 28 imm s

/-- PUSH29 (42_push R130). -/
def execPush29 (imm : Word) (s : State) : Outcome State Fault Refusal :=
  pushOp (staticCost s.cfg (.push29 imm)) 29 imm s

/-- PUSH30 (42_push R131). -/
def execPush30 (imm : Word) (s : State) : Outcome State Fault Refusal :=
  pushOp (staticCost s.cfg (.push30 imm)) 30 imm s

/-- PUSH31 (42_push R132). -/
def execPush31 (imm : Word) (s : State) : Outcome State Fault Refusal :=
  pushOp (staticCost s.cfg (.push31 imm)) 31 imm s

/-- PUSH32 (42_push R133). -/
def execPush32 (imm : Word) (s : State) : Outcome State Fault Refusal :=
  pushOp (staticCost s.cfg (.push32 imm)) 32 imm s

end Sys2Proof.Machine
end

