-- ==== Sys2Proof/Decode.lean ====
section
/-! DEFINITION. The decoder (30_encoding R45 to R55), total on every list of bytes and refusing by name, and the encoder
written from the same tables (R46, R47, R51). -/

namespace Sys2Proof

/-- What an opcode byte selects (30_encoding R52). -/
inductive Opcode where
  | stop
  | add
  | mul
  | sub
  | div
  /-- PUSH(n), n from 1 to 32 -/
  | push (n : Nat)
  deriving DecidableEq, Repr

/-- `decode(op)` of 30_encoding R52; `none` is `Illegal` (R53). -/
def decodeOpcode (op : Nat) : Option Opcode :=
  if op = 0x00 then some .stop
  else if op = 0x01 then some .add
  else if op = 0x02 then some .mul
  else if op = 0x03 then some .sub
  else if op = 0x04 then some .div
  else if 0x60 ≤ op ∧ op ≤ 0x7F then some (.push (op - 0x5F))
  else none

/-- The accumulator of 30_encoding R49 over the immediate bytes, most significant first. -/
def beNat (bs : List Byte) : Nat := bs.foldl (fun acc b => acc * 256 + b.toNat) 0

/-- The Word of an immediate, zero-extended to 256 bits (30_encoding R49). -/
def beWord (bs : List Byte) : Word := BitVec.ofNat 256 (beNat bs)

/-- PUSH(n) with its immediate, for n from 1 to 32 (30_encoding R51). -/
def mkPush (n : Nat) (v : Word) : Option Instr :=
  match n with
  | 1 => some (.push1 v)
  | 2 => some (.push2 v)
  | 3 => some (.push3 v)
  | 4 => some (.push4 v)
  | 5 => some (.push5 v)
  | 6 => some (.push6 v)
  | 7 => some (.push7 v)
  | 8 => some (.push8 v)
  | 9 => some (.push9 v)
  | 10 => some (.push10 v)
  | 11 => some (.push11 v)
  | 12 => some (.push12 v)
  | 13 => some (.push13 v)
  | 14 => some (.push14 v)
  | 15 => some (.push15 v)
  | 16 => some (.push16 v)
  | 17 => some (.push17 v)
  | 18 => some (.push18 v)
  | 19 => some (.push19 v)
  | 20 => some (.push20 v)
  | 21 => some (.push21 v)
  | 22 => some (.push22 v)
  | 23 => some (.push23 v)
  | 24 => some (.push24 v)
  | 25 => some (.push25 v)
  | 26 => some (.push26 v)
  | 27 => some (.push27 v)
  | 28 => some (.push28 v)
  | 29 => some (.push29 v)
  | 30 => some (.push30 v)
  | 31 => some (.push31 v)
  | 32 => some (.push32 v)
  | _ => none

/-- Why a list of bytes is no instruction. -/
inductive DecodeError where
  /-- there is no opcode byte -/
  | noOpcode
  /-- the opcode byte is one of the 219 illegal values (30_encoding R53) -/
  | illegal (op : Byte)
  /-- fewer immediate bytes follow the opcode than it needs (30_encoding R47) -/
  | truncated (op : Byte) (present : Nat)
  deriving DecidableEq, Repr

/-- The decoder's answer: an instruction with the bytes after it, or a refusal by name. -/
inductive Decoded where
  | ok (i : Instr) (rest : List Byte)
  | refused (e : DecodeError)
  deriving DecidableEq, Repr

/-- Decode the instruction at the head of a byte sequence (30_encoding R48, R52). -/
def decode (bs : List Byte) : Decoded :=
  match bs with
  | [] => .refused .noOpcode
  | op :: rest =>
    match decodeOpcode op.toNat with
    | some .stop => .ok .stop rest
    | some .add => .ok .add rest
    | some .mul => .ok .mul rest
    | some .sub => .ok .sub rest
    | some .div => .ok .div rest
    | some (.push n) =>
      if rest.length < n then .refused (.truncated op rest.length)
      else
        match mkPush n (beWord (rest.take n)) with
        | some i => .ok i (rest.drop n)
        | none => .refused (.illegal op)
    | none => .refused (.illegal op)

/-- The opcode byte (30_encoding R51). -/
def Instr.opcode (i : Instr) : Byte :=
  match i with
  | .stop => 0x00
  | .add => 0x01
  | .mul => 0x02
  | .sub => 0x03
  | .div => 0x04
  | .push1 _ => 0x60
  | .push2 _ => 0x61
  | .push3 _ => 0x62
  | .push4 _ => 0x63
  | .push5 _ => 0x64
  | .push6 _ => 0x65
  | .push7 _ => 0x66
  | .push8 _ => 0x67
  | .push9 _ => 0x68
  | .push10 _ => 0x69
  | .push11 _ => 0x6A
  | .push12 _ => 0x6B
  | .push13 _ => 0x6C
  | .push14 _ => 0x6D
  | .push15 _ => 0x6E
  | .push16 _ => 0x6F
  | .push17 _ => 0x70
  | .push18 _ => 0x71
  | .push19 _ => 0x72
  | .push20 _ => 0x73
  | .push21 _ => 0x74
  | .push22 _ => 0x75
  | .push23 _ => 0x76
  | .push24 _ => 0x77
  | .push25 _ => 0x78
  | .push26 _ => 0x79
  | .push27 _ => 0x7A
  | .push28 _ => 0x7B
  | .push29 _ => 0x7C
  | .push30 _ => 0x7D
  | .push31 _ => 0x7E
  | .push32 _ => 0x7F

/-- The `n` low bytes of a value, most significant first (30_encoding R47). -/
def beBytes (n : Nat) (v : Nat) : List Byte :=
  match n with
  | 0 => []
  | k + 1 => BitVec.ofNat 8 (v / 2 ^ (8 * k)) :: beBytes k v

/-- The bytes of an instruction in address order (30_encoding R46, R47). -/
def encode (i : Instr) : List Byte := i.opcode :: beBytes i.immBytes i.imm.toNat

/-- The longest instruction, PUSH32, in bytes (30_encoding R45). -/
def maxLength : Nat := 33

/-- `count` bytes of a number, byte 0 its least significant eight bits: the numbering of spec/opcode_table.json as the host
reads it, where the first byte of the instruction is bits 7..0. -/
def leBytes (count : Nat) (w : Nat) : List Byte :=
  match count with
  | 0 => []
  | k + 1 => BitVec.ofNat 8 w :: leBytes k (w / 256)

/-- The bytes of an instruction whose `nbits` low bits, a whole number of bytes, are those of `w` and whose further bytes, up to
the longest instruction, are zero. -/
def tableBytes (nbits w : Nat) : List Byte :=
  (leBytes (nbits / 8) w ++ List.replicate maxLength 0x00).take maxLength

/-- The instruction the decoder reads from a word numbered as the opcode table numbers it. -/
def decodeTableWord (nbits w : Nat) : Option Instr :=
  match decode (tableBytes nbits w) with
  | .ok i _ => some i
  | .refused _ => none

end Sys2Proof
end

