-- ==== Sys2Proof/Machine/Fetch.lean ====
section
/-! DEFINITION. The start of a step (40_execution_loop R66 to R68): the end-of-code test, the bytes the decoder is given, and
the failure on an illegal opcode; and the placing of one instruction at `pc` for the host. -/

namespace Sys2Proof.Machine

/-- The end-of-code test (40_execution_loop R68). -/
def endOfCode (s : State) : Bool := decide (s.codeLen ≤ s.pc)

/-- `count` bytes from `a` on, for the decoder. An address at or past `code_len` is not read: 00H stands for a byte that is not
there, and no rule uses it, since a PUSH whose bytes are not all there fails before it uses its immediate (20_memory R31,
42_push R100; log entry 7). -/
def decodeBytes (s : State) (a count : Nat) : List Byte :=
  match count with
  | 0 => []
  | k + 1 => (codeByte s a).getD 0x00 :: decodeBytes s (a + 1) k

/-- What the fetch at `pc` finds. -/
inductive Fetched where
  /-- an instruction -/
  | instr (i : Instr)
  /-- an illegal opcode byte (30_encoding R53) -/
  | illegal
  /-- there is no byte at `pc` -/
  | outOfRange
  deriving DecidableEq, Repr

/-- Fetch and decode at `pc` (40_execution_loop R66, R67). -/
def fetch (s : State) : Fetched :=
  match codeByte s s.pc with
  | none => .outOfRange
  | some op =>
    match decode (op :: decodeBytes s (s.pc + 1) (maxLength - 1)) with
    | .ok i _ => .instr i
    | .refused _ => .illegal

/-- The end-of-code step: `status` and nothing else (40_execution_loop R68). -/
def endOfCodeStep (s : State) : State := haltSuccess s

/-- The step on an illegal opcode byte: `pc` passes it, nothing is charged, `InvalidOpcode` (60_exceptions R153). -/
def illegalStep (s : State) : State := raise .invalidOpcode (passOpcode s)

/-- A step asked of a halted machine changes nothing (43_control R142; log entry 5). -/
def haltedStep (s : State) : State := s

/-- The code space with an instruction, numbered as the opcode table numbers it, at `pc`, and long enough to hold it. -/
def placeFetchWord (s : State) (nbits w : Nat) : State :=
  { s with
    code := Memory.place s.code s.pc (tableBytes nbits w)
    codeLen := max s.codeLen (s.pc + maxLength)
    status := .running }

end Sys2Proof.Machine
end

