-- ==== Sys2Proof/Machine/Step.lean ====
section
/-! DEFINITION. One step of the machine (40_execution_loop R70), and the host's placing of the next instruction. -/

namespace Sys2Proof.Machine

open Host (Outcome)

/-- One step (40_execution_loop R70): the end-of-code test, the fetch, the dispatch. -/
def step (s : State) : Outcome State Fault Refusal :=
  match s.status with
  | .running =>
    if endOfCode s then .next (endOfCodeStep s)
    else
      match fetch s with
      | .instr i => exec i s
      | .illegal => .next (illegalStep s)
      | .outOfRange => .fault (.codeReadOutOfRange s.pc)
  | .success => .next (haltedStep s)
  | .failure _ => .next (haltedStep s)

/-- `s` with the instruction whose bits are `w` placed at `pc`, the machine running, so that the next step runs it. It stands
for the host's load of a program (70_reset R183; log entry 3). -/
def State.withFetchWord (s : State) (nbits w : Nat) : State := placeFetchWord s nbits w

end Sys2Proof.Machine
end

