-- ==== Sys2Proof/Machine/Flags.lean ====
section
/-! DEFINITION. The machine has no arithmetic flags (10_state R17). Here is the one status word it has, the encoding of
`status` (10_state R14), and the handler's halt flag (R17, 40_execution_loop R67). -/

namespace Sys2Proof.Machine

/-- The code of a failure kind (60_exceptions R150; 10_state R14, field `kind`). -/
def FailureKind.code (k : FailureKind) : BitVec 3 :=
  match k with
  | .outOfGas => 1
  | .stackUnderflow => 2
  | .invalidOpcode => 3
  | .unexpectedEndOfBytecode => 4
  | .stackOverflow => 5

/-- The field `state`, `status[1:0]` (10_state R14). -/
def Status.stateField (st : Status) : BitVec 2 :=
  match st with
  | .running => 0
  | .success => 1
  | .failure _ => 2

/-- The field `kind`, `status[4:2]`: 0 unless the machine has failed (10_state R14). -/
def Status.kindField (st : Status) : BitVec 3 :=
  match st with
  | .running => 0
  | .success => 0
  | .failure k => k.code

/-- The 5-bit `status` register (10_state R14). -/
def Status.word (st : Status) : BitVec 5 := st.kindField ++ st.stateField

/-- The output `halted`: 1 when `status.state != 0` (10_state R22). -/
def halted (s : State) : Bool := decide (s.status.stateField ≠ 0)

/-- The halt flag a handler returns: true for STOP only (40_execution_loop R67). -/
def haltFlag (i : Instr) : Bool := decide (i = .stop)

end Sys2Proof.Machine
end

