-- ==== Sys2Proof/Machine/HostPort.lean ====
section
/-! DEFINITION. What the host can read of the machine (10_state R22, R23; 70_reset R185): nothing while it runs (log entry 6). -/

namespace Sys2Proof.Machine

/-- The outputs of 10_state R22 that carry the result of a run. -/
structure HostView where
  status : BitVec 5
  gas    : Nat
  pc     : Nat
  sp     : Nat
  deriving DecidableEq, Repr

/-- The outputs, meaningful only while `halted = 1` (10_state R23). -/
def hostRead (s : State) : Option HostView :=
  if halted s then some { status := s.status.word, gas := s.gas, pc := s.pc, sp := s.sp }
  else none

/-- The stack readout port: `stack[raddr]`, meaningful only for `raddr < sp` and only while `halted = 1` (10_state R22, R24). -/
def stackRdata (s : State) (raddr : Nat) : Option Word :=
  if halted s then s.stack[raddr]? else none

end Sys2Proof.Machine
end

