-- ==== Sys2Proof/Safety.lean ====
section
/-! DEFINITION. The terms claims are stated in: the machine's invariant, what a run leaves, and the spec's own formulas where
they are written otherwise than the model computes them. -/

namespace Sys2Proof.Machine

open Host (Outcome)

/-- The invariant of the machine: the bounds of `pc` (10_state R12, 40_execution_loop R73), of `sp` (10_state R11), of
`code_len` and `gas` within their registers' widths (00_scope R6, 70_reset R184), and the code space's canonical form with no
byte at or past `code_len` (20_memory R30). That every live Word is below 2^256 (10_state R16) holds by its type. -/
abbrev State.wf (s : State) : Prop :=
  s.pc ≤ s.codeLen ∧ s.codeLen ≤ s.cfg.codeMax ∧ s.gas < 2 ^ s.cfg.gasWidth ∧ s.stack.length ≤ s.cfg.stackDepth ∧
    Memory.wf s.code ∧ ∀ c ∈ s.code, c.1 < s.codeLen

/-- The end of a run: a state with `status != Running` (70_reset R189). -/
abbrev State.ended (s : State) : Prop := s.status ≠ .running

/-- The sum of 30_encoding R49: the big-endian value of bytes, most significant first. -/
def beSum (bs : List Byte) : Nat :=
  ∑ k ∈ Finset.range bs.length, (bs.getD k 0).toNat * 2 ^ (8 * (bs.length - 1 - k))

/-- `BE(a, n)` of 00_scope section 4.2: the big-endian value of the code bytes at `a` to `a + n - 1`. -/
def beValue (s : State) (a n : Nat) : Nat :=
  ∑ k ∈ Finset.range n, (Memory.read s.code (a + k)).toNat * 2 ^ (8 * (n - 1 - k))

/-- What no instruction writes: the configuration, `code_len`, and every byte of the code space (20_memory R32, 10_state R15). -/
def sameCode (s t : State) : Prop :=
  t.cfg = s.cfg ∧ t.codeLen = s.codeLen ∧ t.code = s.code ∧ ∀ a, Memory.read t.code a = Memory.read s.code a

/-- The machine ends its run within `k` steps of `s`. -/
def endsWithin (k : Nat) (s : State) : Prop :=
  ∃ (j : Nat) (t : State), j ≤ k ∧ Host.Core.run core j s = .next t ∧ t.ended

/-- What one of ADD, MUL, SUB, DIV is to do: its byte, in both directions and as the next step runs it, and the three outcomes of
41_arithmetic R90, in the order tested. `f n1 n2` is the exact integer result of which the stack receives the value modulo
2^256, with the mathematical modulus. -/
def ArithmeticRule (op : Byte) (i : Instr) (cost : Nat) (f : Int → Int → Int) : Prop :=
  encode i = [op] ∧ (∀ rest, decode (op :: rest) = .ok i rest) ∧
  (∀ s : State, s.status = .running → codeByte s s.pc = some op → step s = exec i s) ∧
  (∀ s : State, s.gas < cost →
    exec i s = .next { s with pc := s.pc + 1, status := .failure .outOfGas }) ∧
  (∀ s : State, cost ≤ s.gas → s.stack.length < 2 →
    exec i s = .next { s with pc := s.pc + 1, gas := s.gas - cost, status := .failure .stackUnderflow }) ∧
  (∀ (s : State) (below : List Word) (n1 n2 : Word), cost ≤ s.gas → s.stack = below ++ [n2, n1] →
    s.stack.length ≤ s.cfg.stackDepth →
    exec i s = .next { s with
      pc := s.pc + 1
      gas := s.gas - cost
      stack := below ++ [BitVec.ofNat 256 (f (n1.toNat : Int) (n2.toNat : Int) % 2 ^ 256).toNat] })

/-- What PUSHn is to do: its encoding; the Word the next step pushes when its opcode byte is at `pc`, the big-endian value of
the code bytes after it; and the four outcomes of 42_push R100 and R135, in the order tested, for every immediate, with `cost`
the gas it is charged. -/
def PushRule (op : Byte) (n : Nat) (i : Word → Instr) (cost : Config → Nat) : Prop :=
  (∀ imm rest : List Byte, imm.length = n →
    decode (op :: (imm ++ rest)) = .ok (i (BitVec.ofNat 256 (beSum imm))) rest ∧
    encode (i (BitVec.ofNat 256 (beSum imm))) = op :: imm) ∧
  (∀ s : State, s.status = .running → codeByte s s.pc = some op →
    ∃ v : Word, step s = exec (i v) s ∧
      (s.pc + 1 + n ≤ s.codeLen → v.toNat = beValue s (s.pc + 1) n ∧ v.toNat < 2 ^ (8 * n))) ∧
  (∀ (v : Word) (s : State), s.gas < cost s.cfg →
    exec (i v) s = .next { s with pc := s.pc + 1, status := .failure .outOfGas }) ∧
  (∀ (v : Word) (s : State), cost s.cfg ≤ s.gas → s.codeLen - (s.pc + 1) < n →
    exec (i v) s = .next { s with
      pc := s.pc + 1, gas := s.gas - cost s.cfg, status := .failure .unexpectedEndOfBytecode }) ∧
  (∀ (v : Word) (s : State), cost s.cfg ≤ s.gas → s.pc + 1 + n ≤ s.codeLen → s.stack.length = s.cfg.stackDepth →
    exec (i v) s = .next { s with
      pc := s.pc + 1, gas := s.gas - cost s.cfg, status := .failure .stackOverflow }) ∧
  (∀ (v : Word) (s : State), cost s.cfg ≤ s.gas → s.pc + 1 + n ≤ s.codeLen → s.stack.length < s.cfg.stackDepth →
    exec (i v) s = .next { s with
      pc := s.pc + 1 + n, gas := s.gas - cost s.cfg, stack := s.stack ++ [v] })

/-- The cost of each of PUSH2 to PUSH32 (42_push R101). -/
def pushNCost (c : Config) : Nat := c.gPushN

/-- The cost of PUSH1 (42_push R102). -/
def push1Cost (_ : Config) : Nat := 3

end Sys2Proof.Machine
end

