-- ==== Sys2Proof/Certificates/Slice0/Obligations.lean ====
section
/-! DEFINITION. The statements of slice 0, for the provers. -/

open Sys2Proof Sys2Proof.Machine

/-- 10_state R21, 70_reset R180 (that construction is reset is the spec's decision, 92 D6): every component of the state after reset, from the inputs the host drives. Nothing here rests on the
inputs `State.reset` names (log entries 2 and 3). -/
def Obligations.ResetTakesTheHostsInputs : Prop :=
  ∀ (h : HostInput) (earlier : State),
    (resetWith h).status = .running ∧ (resetWith h).pc = 0 ∧ (resetWith h).stack = [] ∧ (resetWith h).sp = 0 ∧
    (resetWith h).gas = h.initialGas ∧ (resetWith h).codeLen = h.bytecode.length ∧
    (∀ a, codeByte (resetWith h) a = h.bytecode[a]?) ∧
    hostReset h earlier = resetWith h

/-- The invariant's base case. `State.reset` names inputs of the model's own (DESIGN CHOICE, log entries 2 and 3); `resetWith` takes
every input 70_reset R184 admits. -/
def Obligations.ResetMeetsTheInvariant : Prop :=
  State.reset.wf ∧ ∀ h : HostInput, h.admissible → (resetWith h).wf

/-- 10_state R11, R12, R13, 40_execution_loop R73: the register bounds, kept by every step from every state that has them. -/
def Obligations.EveryStepKeepsTheInvariant : Prop :=
  ∀ s t : State, s.wf → step s = .next t → t.wf

/-- 40_execution_loop R73 (which the spec derives from R66, R68, R70), without any other part of the invariant. -/
def Obligations.PcStaysWithinTheCode : Prop :=
  (∀ h : HostInput, (resetWith h).pc ≤ (resetWith h).codeLen) ∧
    ∀ s t : State, s.pc ≤ s.codeLen → step s = .next t → t.pc ≤ t.codeLen

/-- Running states: 20_memory R31 (every code read is in range) and 93 Part 1 (R70 gives exactly one next state). Halted states: the
model's choice, log entry 5 (R142 allows the identity or no step, 93 U13 says no step exists). States outside 92 D17's domain: the model's choice, log
entry 12. -/
def Obligations.EveryStepAnswersANextState : Prop :=
  ∀ s : State, ∃ t : State, step s = .next t

/-- 60_exceptions R156: a failure is a state the machine is left in, never a stop of the model. That `exec` answers on a halted state too
(the machine never runs it there) and outside 92 D17's domain is the model's choice, log entries 5 and 12. -/
def Obligations.EveryInstructionAnswersANextState : Prop :=
  ∀ (i : Instr) (s : State), ∃ t : State, exec i s = .next t

/-- 40_execution_loop R72 (which the spec derives from R70, R73, R143). `endsWithin k s`: some run of at most `k` steps from `s`
answers a state with `status != Running`. -/
def Obligations.EveryRunEnds : Prop :=
  (∀ h : HostInput, endsWithin (h.bytecode.length + 1) (resetWith h)) ∧
    (∀ s : State, s.pc ≤ s.codeLen → endsWithin (s.codeLen - s.pc + 1) s) ∧
    (∀ s t : State, s.status = .running → step s = .next t → t.status = .running →
      ∃ i : Instr, fetch s = .instr i ∧ t.pc = s.pc + (1 + i.immBytes) ∧ s.pc < t.pc) ∧
    (∀ s t : State, s.pc ≤ s.codeLen → step s = .next t → t.pc ≤ t.codeLen) ∧
    (∀ s t : State, s.status = .running → s.pc = s.codeLen → step s = .next t → t.ended)

/-- 40_execution_loop R70: what `step` adds around `exec` is nothing but the tests before it. The bytes given to the decoder are those
of the code space from `pc` on. -/
def Obligations.StepRunsDecodedInstruction : Prop :=
  ∀ (s : State) (i : Instr) (rest : List Byte), s.status = .running → s.pc < s.codeLen →
    decode (decodeBytes s s.pc maxLength) = .ok i rest → step s = exec i s

/-- 30_encoding R46, R47 and 40_execution_loop R67: the whole way from bytes in the code space to the meaning. -/
def Obligations.StepRunsEncodedInstruction : Prop :=
  ∀ (s : State) (i : Instr), s.status = .running → i.wf →
    (∀ k, k < i.length → codeByte s (s.pc + k) = (encode i)[k]?) → step s = exec i s

/-- 30_encoding R46, R47, R51 and 95_test_vectors S8, S9, V-PUSH-5: words written out by hand. -/
def Obligations.WordsOfTheEncodingTables : Prop :=
  decode [0x00] = .ok .stop [] ∧ decode [0x01] = .ok .add [] ∧ decode [0x02] = .ok .mul [] ∧
    decode [0x03] = .ok .sub [] ∧ decode [0x04] = .ok .div [] ∧
    decode [0x60, 0x05] = .ok (.push1 5) [] ∧ decode [0x61, 0x01, 0x02] = .ok (.push2 258) [] ∧
    decode [0x62, 0x00, 0x01, 0x50, 0x00] = .ok (.push3 336) [0x00] ∧
    decode [0x5F] = .refused (.illegal 0x5F) ∧ decode [0x80] = .refused (.illegal 0x80) ∧
    decode [0x61, 0x01] = .refused (.truncated 0x61 1)

/-- 30_encoding R52. -/
def Obligations.OpcodeMapIsTotalAndExact : Prop :=
  decodeOpcode 0x00 = some .stop ∧ decodeOpcode 0x01 = some .add ∧ decodeOpcode 0x02 = some .mul ∧
    decodeOpcode 0x03 = some .sub ∧ decodeOpcode 0x04 = some .div ∧
    (∀ n, 1 ≤ n → n ≤ 32 → decodeOpcode (0x5F + n) = some (.push n)) ∧
    (∀ op, op < 256 → (decodeOpcode op = none ↔ (0x05 ≤ op ∧ op ≤ 0x5F) ∨ 0x80 ≤ op))

/-- 30_encoding R45 to R51: no bit of an encoding is dropped, for any of the 37 instructions at any immediate. -/
def Obligations.DecodeInvertsEncode : Prop :=
  ∀ (i : Instr) (rest : List Byte), i.wf → decode (encode i ++ rest) = .ok i rest

/-- 30_encoding R48, R49, R52: the other direction, so that no two byte sequences of one length are one instruction. -/
def Obligations.EncodeInvertsDecode : Prop :=
  ∀ (bs : List Byte) (i : Instr) (rest : List Byte), decode bs = .ok i rest → bs = encode i ++ rest ∧ i.wf

/-- 30_encoding R49: the accumulator of the model against the sum of the rule. -/
def Obligations.ImmediateIsBigEndian : Prop :=
  ∀ bs : List Byte, bs.length ≤ 32 →
    (beWord bs).toNat = beSum bs ∧ beSum bs < 2 ^ (8 * bs.length) ∧
    beSum bs = bs.foldl (fun acc b => acc * 256 + b.toNat) 0

/-- The model's host interface (70_reset R183 stands behind it): `withFetchWord` places exactly what `decodeTableWord` reads. -/
def Obligations.TableWordRunsNext : Prop :=
  ∀ (s : State) (nbits w : Nat) (i : Instr), decodeTableWord nbits w = some i →
    step (s.withFetchWord nbits w) = exec i (s.withFetchWord nbits w)

/-- 40_execution_loop R68. -/
def Obligations.EndOfCodeHaltsSuccessfully : Prop :=
  ∀ s : State, s.status = .running → s.pc ≥ s.codeLen → step s = .next { s with status := .success }

/-- 60_exceptions R153, 30_encoding R53. -/
def Obligations.IllegalOpcodeFails : Prop :=
  (∀ (s : State) (op : Byte), s.status = .running → codeByte s s.pc = some op →
      ((0x05 ≤ op.toNat ∧ op.toNat ≤ 0x5F) ∨ 0x80 ≤ op.toNat) →
      step s = .next { s with pc := s.pc + 1, status := .failure .invalidOpcode }) ∧
    ((List.range 256).filter (fun op => decodeOpcode op = none)).length = 219

/-- 43_control R142: `pc`, `gas`, `sp`, the stack and `status` hold their values. That `step` answers at all is the model's choice
(log entry 5). -/
def Obligations.HaltedStatesAreTerminal : Prop :=
  ∀ s : State, s.status ≠ .running → step s = .next s

/-- 40_execution_loop R60. -/
def Obligations.ConsumeChargesOrFails : Prop :=
  ∀ (amount : Nat) (s : State),
    (s.gas < amount → consume amount s = .stopped { s with status := .failure .outOfGas }) ∧
    (amount ≤ s.gas → consume amount s = .go { s with gas := s.gas - amount }) ∧
    consume 0 s = .go s ∧ consume s.gas s = .go { s with gas := 0 }

/-- 40_execution_loop R63. That a full stack raises StackOverflow is the spec's decision, 92 D3. -/
def Obligations.PushAppendsOrOverflows : Prop :=
  ∀ (w : Word) (s : State),
    (s.sp = s.cfg.stackDepth → push w s = .stopped { s with status := .failure .stackOverflow }) ∧
    (s.sp < s.cfg.stackDepth → ∃ t : State, push w s = .go t ∧ t = { s with stack := t.stack } ∧ t.sp = s.sp + 1 ∧
      t.stack[s.sp]? = some w ∧ ∀ k, k < s.sp → t.stack[k]? = s.stack[k]?)

/-- 40_execution_loop R64. -/
def Obligations.PopTwoTakesTheTopTwo : Prop :=
  ∀ s : State,
    (s.sp < 2 → popTwo s = .stopped { s with status := .failure .stackUnderflow }) ∧
    (2 ≤ s.sp → ∃ p : Popped, popTwo s = .go p ∧ s.stack[s.sp - 1]? = some p.n1 ∧ s.stack[s.sp - 2]? = some p.n2 ∧
      p.after = { s with stack := s.stack.take (s.sp - 2) })

/-- 41_arithmetic R82. -/
def Obligations.AdditionLaw : Prop :=
  (∀ x y : Word, (wordAdd x y).toNat = (x.toNat + y.toNat) % 2 ^ 256 ∧
      (x.toNat + y.toNat < 2 ^ 256 → (wordAdd x y).toNat = x.toNat + y.toNat) ∧
      (2 ^ 256 ≤ x.toNat + y.toNat → (wordAdd x y).toNat = x.toNat + y.toNat - 2 ^ 256) ∧
      wordAdd x y = wordAdd y x ∧ wordAdd x 0 = x) ∧
    wordAdd (BitVec.ofNat 256 (2 ^ 256 - 1)) 1 = 0

/-- 41_arithmetic R83. -/
def Obligations.SubtractionLaw : Prop :=
  (∀ x y : Word, ((wordSub x y).toNat : Int) = ((x.toNat : Int) - (y.toNat : Int)) % 2 ^ 256 ∧
      (y.toNat ≤ x.toNat → (wordSub x y).toNat = x.toNat - y.toNat) ∧
      (x.toNat < y.toNat → (wordSub x y).toNat = x.toNat + 2 ^ 256 - y.toNat) ∧
      (wordSub x y).toNat = (x.toNat + (2 ^ 256 - y.toNat)) % 2 ^ 256 ∧
      wordSub x x = 0 ∧ wordSub x 0 = x ∧ (wordSub 0 y).toNat = (2 ^ 256 - y.toNat) % 2 ^ 256) ∧
    (wordSub 0 1).toNat = 2 ^ 256 - 1

/-- 41_arithmetic R84. -/
def Obligations.MultiplicationLaw : Prop :=
  (∀ x y : Word, (wordMul x y).toNat = (x.toNat * y.toNat) % 2 ^ 256 ∧ wordMul x y = wordMul y x ∧
      wordMul x 0 = 0 ∧ wordMul x 1 = x) ∧
    wordMul (BitVec.ofNat 256 (2 ^ 128)) (BitVec.ofNat 256 (2 ^ 128)) = 0 ∧
    wordMul (BitVec.ofNat 256 (2 ^ 256 - 1)) (BitVec.ofNat 256 (2 ^ 256 - 1)) = 1

/-- 41_arithmetic R85, with the quotient's bounds of 41_arithmetic section 4. -/
def Obligations.DivisionLaw : Prop :=
  ∀ x y : Word,
    (y = 0 → wordDiv x y = 0) ∧
    (y ≠ 0 → (wordDiv x y).toNat = x.toNat / y.toNat ∧
      (wordDiv x y).toNat * y.toNat ≤ x.toNat ∧ x.toNat < ((wordDiv x y).toNat + 1) * y.toNat) ∧
    wordDiv x 1 = x ∧ (x ≠ 0 → wordDiv x x = 1) ∧ wordDiv 0 y = 0 ∧ (x.toNat < y.toNat → wordDiv x y = 0)

/-- 41_arithmetic section 4, second and third properties. -/
def Obligations.SubtractionCancels : Prop :=
  ∀ x y : Word, wordAdd (wordSub x y) y = x ∧ wordAdd (wordSub x y) (wordSub y x) = 0

/-- 41_arithmetic R86, through `ArithmeticRule` (Safety.lean). Its last clause is the completion of `add`. -/
def Obligations.AddMeetsItsRule : Prop :=
  ArithmeticRule 0x01 .add 3 (fun n1 n2 => n1 + n2)

/-- 41_arithmetic R87, through `ArithmeticRule` (Safety.lean). Its last clause is the completion of `mul`. -/
def Obligations.MulMeetsItsRule : Prop :=
  ArithmeticRule 0x02 .mul 5 (fun n1 n2 => n1 * n2)

/-- 41_arithmetic R88, through `ArithmeticRule` (Safety.lean). Its last clause is the completion of `sub`. -/
def Obligations.SubMeetsItsRule : Prop :=
  ArithmeticRule 0x03 .sub 3 (fun n1 n2 => n2 - n1)

/-- 41_arithmetic R89, through `ArithmeticRule` (Safety.lean). Its last clause is the completion of `div`. -/
def Obligations.DivMeetsItsRule : Prop :=
  ArithmeticRule 0x04 .div 5 (fun n1 n2 => if n1 = 0 then 0 else n2 / n1)

/-- 43_control R140. The last clause is the completion of `stop`. -/
def Obligations.StopMeetsItsRule : Prop :=
  (encode .stop = [0x00] ∧ ∀ rest, decode (0x00 :: rest) = .ok .stop rest) ∧
    (∀ s : State, s.status = .running → codeByte s s.pc = some 0x00 → step s = exec .stop s) ∧
    ∀ s : State, exec .stop s = .next { s with pc := s.pc + 1, status := .success }

/-- 42_push R102, through `PushRule` (Safety.lean). Its last clause is the completion of `push1`. StackOverflow is the spec's
decision 92 D3. -/
def Obligations.Push1MeetsItsRule : Prop :=
  PushRule 0x60 1 .push1 push1Cost

/-- 42_push R103 to R113, through `PushRule` (Safety.lean), whose last clause is the completion of each of
push2, push3, push4, push5, push6, push7, push8, push9, push10, push11, push12. The cost G_PUSHN and its
default 3 are the spec's decision 92 D4, StackOverflow 92 D3. -/
def Obligations.Push2To12MeetTheirRules : Prop :=
  Config.default.gPushN = 3 ∧
    PushRule 0x61 2 .push2 pushNCost ∧
    PushRule 0x62 3 .push3 pushNCost ∧
    PushRule 0x63 4 .push4 pushNCost ∧
    PushRule 0x64 5 .push5 pushNCost ∧
    PushRule 0x65 6 .push6 pushNCost ∧
    PushRule 0x66 7 .push7 pushNCost ∧
    PushRule 0x67 8 .push8 pushNCost ∧
    PushRule 0x68 9 .push9 pushNCost ∧
    PushRule 0x69 10 .push10 pushNCost ∧
    PushRule 0x6A 11 .push11 pushNCost ∧
    PushRule 0x6B 12 .push12 pushNCost

/-- 42_push R114 to R123, through `PushRule` (Safety.lean), whose last clause is the completion of each of
push13, push14, push15, push16, push17, push18, push19, push20, push21, push22. The cost G_PUSHN and its
default 3 are the spec's decision 92 D4, StackOverflow 92 D3. -/
def Obligations.Push13To22MeetTheirRules : Prop :=
  Config.default.gPushN = 3 ∧
    PushRule 0x6C 13 .push13 pushNCost ∧
    PushRule 0x6D 14 .push14 pushNCost ∧
    PushRule 0x6E 15 .push15 pushNCost ∧
    PushRule 0x6F 16 .push16 pushNCost ∧
    PushRule 0x70 17 .push17 pushNCost ∧
    PushRule 0x71 18 .push18 pushNCost ∧
    PushRule 0x72 19 .push19 pushNCost ∧
    PushRule 0x73 20 .push20 pushNCost ∧
    PushRule 0x74 21 .push21 pushNCost ∧
    PushRule 0x75 22 .push22 pushNCost

/-- 42_push R124 to R133, through `PushRule` (Safety.lean), whose last clause is the completion of each of
push23, push24, push25, push26, push27, push28, push29, push30, push31, push32. The cost G_PUSHN and its
default 3 are the spec's decision 92 D4, StackOverflow 92 D3. -/
def Obligations.Push23To32MeetTheirRules : Prop :=
  Config.default.gPushN = 3 ∧
    PushRule 0x76 23 .push23 pushNCost ∧
    PushRule 0x77 24 .push24 pushNCost ∧
    PushRule 0x78 25 .push25 pushNCost ∧
    PushRule 0x79 26 .push26 pushNCost ∧
    PushRule 0x7A 27 .push27 pushNCost ∧
    PushRule 0x7B 28 .push28 pushNCost ∧
    PushRule 0x7C 29 .push29 pushNCost ∧
    PushRule 0x7D 30 .push30 pushNCost ∧
    PushRule 0x7E 31 .push31 pushNCost ∧
    PushRule 0x7F 32 .push32 pushNCost

/-- 42_push R100 and R135 as one equation over the code space: fetch, decoding and meaning together. The cost G_PUSHN is
the spec's decision 92 D4, StackOverflow and its rank 92 D3. `beValue` is the sum of
30_encoding R49 over the code bytes themselves. -/
def Obligations.PushFamilyStep : Prop :=
  ∀ (n : Nat) (s : State), 1 ≤ n → n ≤ 32 → s.status = .running →
    codeByte s s.pc = some (BitVec.ofNat 8 (0x5F + n)) →
    step s = .next
      (if s.gas < (if n = 1 then 3 else s.cfg.gPushN) then
        { s with pc := s.pc + 1, status := .failure .outOfGas }
      else if s.codeLen - (s.pc + 1) < n then
        { s with
          pc := s.pc + 1, gas := s.gas - (if n = 1 then 3 else s.cfg.gPushN), status := .failure .unexpectedEndOfBytecode }
      else if s.stack.length = s.cfg.stackDepth then
        { s with
          pc := s.pc + 1, gas := s.gas - (if n = 1 then 3 else s.cfg.gPushN), status := .failure .stackOverflow }
      else
        { s with
          pc := s.pc + 1 + n
          gas := s.gas - (if n = 1 then 3 else s.cfg.gPushN)
          stack := s.stack ++ [BitVec.ofNat 256 (beValue s (s.pc + 1) n)] })

/-- 30_encoding R58. G_PUSHN and its default are the spec's decision, 92 D4. -/
def Obligations.StaticCostTable : Prop :=
  (∀ c : Config, staticCost c .stop = 0 ∧ staticCost c .add = 3 ∧ staticCost c .mul = 5 ∧ staticCost c .sub = 3 ∧
      staticCost c .div = 5 ∧ (∀ v, staticCost c (.push1 v) = 3) ∧
      (∀ i : Instr, 2 ≤ i.immBytes → staticCost c i = c.gPushN) ∧
      (∀ i j : Instr, i.opcode = j.opcode → staticCost c i = staticCost c j)) ∧
    Config.default.gPushN = 3 ∧
    (∀ s : State, (illegalStep s).gas = s.gas ∧ (endOfCodeStep s).gas = s.gas)

/-- 60_exceptions R156. -/
def Obligations.RaiseWritesStatusOnly : Prop :=
  ∀ (k : FailureKind) (s : State), (raise k s).status = .failure k ∧ (raise k s).pc = s.pc ∧ (raise k s).gas = s.gas ∧
    (raise k s).stack = s.stack ∧ sameCode s (raise k s)

/-- 40_execution_loop R74. The bound on the stack is the invariant's (EveryStepKeepsTheInvariant): only states no run reaches break it. -/
def Obligations.FailuresArePrecise : Prop :=
  ∀ (s t : State) (k : FailureKind), s.status = .running → s.stack.length ≤ s.cfg.stackDepth → step s = .next t → t.status = .failure k →
    t.pc = s.pc + 1 ∧ t.stack = s.stack ∧ sameCode s t ∧
    ((k = .outOfGas ∨ k = .invalidOpcode) → t.gas = s.gas) ∧
    (k ≠ .outOfGas → k ≠ .invalidOpcode →
      ∃ i : Instr, fetch s = .instr i ∧ staticCost s.cfg i ≤ s.gas ∧ t.gas = s.gas - staticCost s.cfg i)

/-- 40_execution_loop R75, 60_exceptions R169: what the host can recover after a failure. `pc` after a failure is the spec's own
reading, 92 D12. -/
def Obligations.FailingOpcodeIsJustBehindPc : Prop :=
  (∀ s t : State, s.status = .running → step s = .next t → (∃ k, t.status = .failure k) →
      1 ≤ t.pc ∧ codeByte t (t.pc - 1) = codeByte s s.pc ∧ (codeByte t (t.pc - 1)).isSome) ∧
    (∀ s t : State, ((∃ k, s.status = .failure k) → 1 ≤ s.pc ∧ (codeByte s (s.pc - 1)).isSome) → step s = .next t →
      (∃ k, t.status = .failure k) → 1 ≤ t.pc ∧ (codeByte t (t.pc - 1)).isSome) ∧
    (∀ h : HostInput, ¬ ∃ k, (resetWith h).status = .failure k)

/-- 60_exceptions R150 and R157: the column 'raised by', and that `OutOfGas` is tested before every other failure. -/
def Obligations.WhoRaisesWhichFailure : Prop :=
  ∀ (i : Instr) (s t : State) (k : FailureKind), s.status = .running → exec i s = .next t → t.status = .failure k →
    k ≠ .invalidOpcode ∧ i ≠ .stop ∧
    (k = .stackUnderflow → i = .add ∨ i = .mul ∨ i = .sub ∨ i = .div) ∧
    (k = .unexpectedEndOfBytecode → 1 ≤ i.immBytes) ∧
    (k = .stackOverflow → s.stack.length ≤ s.cfg.stackDepth → 1 ≤ i.immBytes) ∧
    (k = .outOfGas ↔ s.gas < staticCost s.cfg i)

/-- 43_control R141 (which the spec derives from R140 and R70). -/
def Obligations.SuccessIsReachedInTwoWays : Prop :=
  (∀ s t : State, s.status = .running → step s = .next t →
      ((t.status = .success ↔ s.codeLen ≤ s.pc ∨ codeByte s s.pc = some 0x00) ∧
       (s.codeLen ≤ s.pc → t = { s with status := .success }) ∧
       (codeByte s s.pc = some 0x00 → t = { s with pc := s.pc + 1, status := .success }))) ∧
    (∀ h : HostInput, h.bytecode = [] → ∃ t : State, step (resetWith h) = .next t ∧ t.status = .success ∧
      t.stack = [] ∧ t.gas = h.initialGas)

/-- 40_execution_loop R67, 10_state R17. -/
def Obligations.HaltFlagIsStopsAlone : Prop :=
  ∀ (i : Instr) (s t : State), s.status = .running → exec i s = .next t → (∀ k, t.status ≠ .failure k) →
    t.status = (if haltFlag i = true then .success else .running) ∧ (haltFlag i = true ↔ i = .stop)

/-- 20_memory R32: every byte, read through the model's own read. -/
def Obligations.NoStepWritesTheCodeSpace : Prop :=
  (∀ s t : State, step s = .next t → sameCode s t) ∧ (∀ (i : Instr) (s t : State), exec i s = .next t → sameCode s t)

/-- 41_arithmetic R90: the lower stack entries are untouched, `status` changes on a failure only, and nothing stores to memory. The bound on
the stack is 10_state R11's, part of the invariant (Obligations.EveryStepKeepsTheInvariant). -/
def Obligations.ArithmeticFrame : Prop :=
  ∀ (i : Instr) (s t : State), s.stack.length ≤ s.cfg.stackDepth → (i = .add ∨ i = .mul ∨ i = .sub ∨ i = .div) →
    exec i s = .next t →
    sameCode s t ∧ t.pc = s.pc + 1 ∧ (∀ k, k < s.sp - 2 → t.stack[k]? = s.stack[k]?) ∧
    (t.gas = s.gas ∨ t.gas + staticCost s.cfg i = s.gas) ∧ (t.stack = s.stack ∨ t.sp + 1 = s.sp) ∧
    (t.status = s.status ∨ ∃ k, t.status = .failure k) ∧
    ((∀ k, t.status ≠ .failure k) → t.status = s.status ∧ t.gas + staticCost s.cfg i = s.gas ∧ t.sp + 1 = s.sp)

/-- 42_push R100, 40_execution_loop R63 (the append) and R65 (a PUSH never pops); nothing stores to memory. -/
def Obligations.PushFrame : Prop :=
  ∀ (i : Instr) (s t : State), 1 ≤ i.immBytes → exec i s = .next t →
    sameCode s t ∧ (∀ k, k < s.sp → t.stack[k]? = s.stack[k]?) ∧
    (t.stack = s.stack ∧ t.pc = s.pc + 1 ∨ t.stack = s.stack ++ [i.imm] ∧ t.pc = s.pc + i.length) ∧
    (t.gas = s.gas ∨ t.gas = s.gas - staticCost s.cfg i) ∧ (t.status = s.status ∨ ∃ k, t.status = .failure k)

/-- 43_control R140: 'The stack, sp and gas are unchanged'. -/
def Obligations.StopFrame : Prop :=
  ∀ s t : State, exec .stop s = .next t → sameCode s t ∧ t.stack = s.stack ∧ t.gas = s.gas

/-- 40_execution_loop R62, one step of it. -/
def Obligations.GasOnlyPaysStaticCosts : Prop :=
  ∀ s t : State, step s = .next t →
    t.gas ≤ s.gas ∧
    (t.gas = s.gas ∨ ∃ i : Instr, fetch s = .instr i ∧ staticCost s.cfg i ≤ s.gas ∧ t.gas + staticCost s.cfg i = s.gas) ∧
    (s.status = .running → t.status = .running →
      ∃ i : Instr, fetch s = .instr i ∧ staticCost s.cfg i ≤ s.gas ∧ t.gas + staticCost s.cfg i = s.gas)

/-- 43_control R143, 10_state R12. -/
def Obligations.PcMovesForwardByInstructionLength : Prop :=
  ∀ (i : Instr) (s t : State), exec i s = .next t →
    (t.pc = s.pc + 1 ∨ t.pc = s.pc + i.length) ∧
    (s.status = .running → t.status = .running → t.pc = s.pc + i.length)

/-- 00_scope R7 and 60_exceptions R155: each PUSH occupies at least two bytes and pushes one Word. -/
def Obligations.ShortCodeNeverOverflows : Prop :=
  (∀ h : HostInput, 2 * (resetWith h).sp ≤ (resetWith h).pc) ∧
    (∀ s t : State, 2 * s.sp ≤ s.pc → step s = .next t → 2 * t.sp ≤ t.pc) ∧
    (∀ s t : State, 2 * s.sp ≤ s.pc → s.codeLen ≤ 2 * s.cfg.stackDepth → s.status ≠ .failure .stackOverflow →
      step s = .next t → t.status ≠ .failure .stackOverflow) ∧
    (∀ (h : HostInput) (k : Nat) (t : State), h.bytecode.length ≤ 2 * h.cfg.stackDepth →
      Host.Core.run core k (resetWith h) = .next t → t.status ≠ .failure .stackOverflow)

/-- 10_state R25 and 30_encoding R58: no instruction reads gas as data. -/
def Obligations.GasDoesNotSteerASufficientlyFundedStep : Prop :=
  ∀ (s : State) (g : Nat), 5 ≤ s.gas → s.cfg.gPushN ≤ s.gas → 5 ≤ g → s.cfg.gPushN ≤ g →
    ∃ t u : State, step s = .next t ∧ step { s with gas := g } = .next u ∧ u = { t with gas := u.gas } ∧
      s.gas - t.gas = g - u.gas

/-- 20_memory R31, R35: the opcode at `pc` and the immediate bytes are all a step reads. -/
def Obligations.StepReadsOnlyItsOwnBytes : Prop :=
  ∀ (s : State) (i : Instr) (c : Memory), s.status = .running → fetch s = .instr i →
    (∀ k, k < i.length → s.pc + k < s.codeLen → Memory.read c (s.pc + k) = Memory.read s.code (s.pc + k)) →
    ∃ t : State, step s = .next t ∧ step { s with code := c } = .next { t with code := c }

/-- 42_push R100, 20_memory R31: log entry 7 rests on this. -/
def Obligations.TruncatedPushIgnoresItsImmediate : Prop :=
  ∀ (i j : Instr) (s : State), i.opcode = j.opcode → s.codeLen - (s.pc + 1) < i.immBytes → exec i s = exec j s

/-- 41_arithmetic R90: 'So PUSH x; PUSH y; SUB computes x - y'. -/
def Obligations.SubtractsInPushOrder : Prop :=
  ∀ (s : State) (x y : Word), 2 * s.cfg.gPushN + 5 ≤ s.gas → s.pc + 66 ≤ s.codeLen → s.sp + 2 ≤ s.cfg.stackDepth →
    ∃ a b : State, exec (.push32 x) s = .next a ∧ exec (.push32 y) a = .next b ∧
      (∃ t : State, exec .sub b = .next t ∧ t.stack = s.stack ++ [wordSub x y] ∧ t.status = s.status ∧ t.pc = s.pc + 67) ∧
      (∃ t : State, exec .div b = .next t ∧ t.stack = s.stack ++ [wordDiv x y] ∧ t.status = s.status ∧ t.pc = s.pc + 67)

/-- 10_state R14, with the words of 95_test_vectors section 2. -/
def Obligations.StatusWordEncoding : Prop :=
  Status.word .running = 0b00000#5 ∧ Status.word .success = 0b00001#5 ∧
    Status.word (.failure .outOfGas) = 0b00110#5 ∧ Status.word (.failure .stackUnderflow) = 0b01010#5 ∧
    Status.word (.failure .invalidOpcode) = 0b01110#5 ∧ Status.word (.failure .unexpectedEndOfBytecode) = 0b10010#5 ∧
    Status.word (.failure .stackOverflow) = 0b10110#5 ∧
    (∀ st : Status, st.word.extractLsb' 0 2 = st.stateField ∧ st.word.extractLsb' 2 3 = st.kindField ∧
      st.stateField ≠ 3 ∧ (st.stateField ≠ 2 → st.kindField = 0) ∧ st.kindField ≠ 6 ∧ st.kindField ≠ 7) ∧
    (∀ s t : State, s.status.stateField ≠ 0 → step s = .next t → t = s)

/-- 10_state R22 to R24. That the model answers none while running is its form of R23 (log entry 6). -/
def Obligations.HostReadsOnlyAHaltedMachine : Prop :=
  ∀ s : State,
    (s.status = .running → hostRead s = none ∧ ∀ i, stackRdata s i = none) ∧
    (s.status ≠ .running →
      hostRead s = some { status := s.status.word, gas := s.gas, pc := s.pc, sp := s.sp } ∧
      (∀ i, i < s.sp → stackRdata s i = s.stack[i]?) ∧ (∀ i, s.sp ≤ i → stackRdata s i = none))
end

