-- ==== Sys2Proof/Laws/Decode.lean ====
section
/-! SUPPORT. Small laws of the decoder and the encoder: big-endian values, the opcode map, and the PUSH table. -/

namespace Sys2Proof

theorem foldl_be (bs : List Byte) (acc : Nat) :
    bs.foldl (fun acc b => acc * 256 + b.toNat) acc = acc * 256 ^ bs.length + beNat bs := by
  induction bs generalizing acc with
  | nil => simp [beNat]
  | cons b rest ih =>
    simp only [beNat, List.foldl_cons, List.length_cons, Nat.zero_mul, Nat.zero_add]
    rw [ih, ih b.toNat]
    ring

@[simp] theorem beNat_nil : beNat [] = 0 := rfl

theorem beNat_cons (b : Byte) (bs : List Byte) : beNat (b :: bs) = b.toNat * 256 ^ bs.length + beNat bs := by
  have := foldl_be bs b.toNat
  simpa [beNat] using this

theorem beNat_lt (bs : List Byte) : beNat bs < 256 ^ bs.length := by
  induction bs with
  | nil => simp
  | cons b rest ih =>
    rw [beNat_cons, List.length_cons, Nat.pow_succ]
    have hb : b.toNat < 256 := b.isLt
    have : b.toNat * 256 ^ rest.length + 256 ^ rest.length ≤ 256 * 256 ^ rest.length := by
      rw [← Nat.succ_mul]; exact Nat.mul_le_mul_right _ hb
    omega

theorem pow_256 (n : Nat) : 256 ^ n = 2 ^ (8 * n) := by rw [Nat.pow_mul]

@[simp] theorem length_beBytes (n v : Nat) : (beBytes n v).length = n := by
  induction n with
  | zero => rfl
  | succ k ih => simp [beBytes, ih]

/-- The bytes of a value, assembled again, are the value modulo what the bytes can hold. -/
theorem beNat_beBytes (n v : Nat) : beNat (beBytes n v) = v % 256 ^ n := by
  induction n with
  | zero => simp [beBytes, Nat.mod_one]
  | succ k ih =>
    rw [beBytes, beNat_cons, length_beBytes, ih, ← pow_256, Nat.pow_succ, Nat.mod_mul,
      BitVec.toNat_ofNat, Nat.mul_comm, Nat.add_comm]

/-- Bytes of a value depend only on the value modulo what they can hold. -/
theorem beBytes_add (n k v : Nat) (h : n ≤ k) (x : Nat) : beBytes n (x * 256 ^ k + v) = beBytes n v := by
  induction n with
  | zero => rfl
  | succ m ih =>
    rw [beBytes, beBytes, ih (by omega)]
    congr 1
    apply BitVec.eq_of_toNat_eq
    simp only [BitVec.toNat_ofNat, ← pow_256]
    have hk : 256 ^ k = 256 ^ m * (256 * 256 ^ (k - m - 1)) := by
      rw [← Nat.pow_succ', ← Nat.pow_add]; congr 1; omega
    have hx : x * 256 ^ k + v = 256 ^ m * (256 * (x * 256 ^ (k - m - 1))) + v := by rw [hk]; ring
    rw [hx, Nat.mul_add_div (by positivity)]
    norm_num [Nat.add_mod]

/-- The bytes of an assembled value are the bytes it was assembled from. -/
theorem beBytes_beNat (bs : List Byte) : beBytes bs.length (beNat bs) = bs := by
  induction bs with
  | nil => rfl
  | cons b rest ih =>
    rw [List.length_cons, beBytes, beNat_cons, beBytes_add _ _ _ (Nat.le_refl _), ih]
    congr 1
    apply BitVec.eq_of_toNat_eq
    have hd : (b.toNat * 256 ^ rest.length + beNat rest) / 256 ^ rest.length = b.toNat := by
      rw [Nat.mul_comm, Nat.mul_add_div (by positivity), Nat.div_eq_of_lt (beNat_lt rest), Nat.add_zero]
    rw [BitVec.toNat_ofNat, ← pow_256, hd]
    exact Nat.mod_eq_of_lt b.isLt

theorem toNat_beWord {bs : List Byte} (h : bs.length ≤ 32) : (beWord bs).toNat = beNat bs := by
  have h1 := beNat_lt bs
  have h2 : 256 ^ bs.length ≤ 256 ^ 32 := Nat.pow_le_pow_right (by norm_num) h
  rw [beWord, BitVec.toNat_ofNat]
  apply Nat.mod_eq_of_lt
  calc beNat bs < 256 ^ 32 := by omega
    _ = 2 ^ 256 := by norm_num

/-- An instruction is determined by the number of its immediate bytes and its immediate, if it has one. -/
theorem mkPush_self {i : Instr} (h : 1 ≤ i.immBytes) : mkPush i.immBytes i.imm = some i := by
  cases i <;> first | rfl | (simp [Instr.immBytes] at h)

theorem mkPush_isSome {n : Nat} (h1 : 1 ≤ n) (h2 : n ≤ 32) (v : Word) :
    ∃ i, mkPush n v = some i ∧ i.immBytes = n ∧ i.imm = v := by
  interval_cases n <;> exact ⟨_, rfl, rfl, rfl⟩

theorem mkPush_inv {n : Nat} (h1 : 1 ≤ n) (h2 : n ≤ 32) {v : Word} {i : Instr} (h : mkPush n v = some i) :
    i.immBytes = n ∧ i.imm = v := by
  obtain ⟨j, hj, hn, hv⟩ := mkPush_isSome h1 h2 v
  rw [h] at hj
  cases hj
  exact ⟨hn, hv⟩

/-- The opcode byte of an instruction with an immediate is 5FH plus its number of immediate bytes (30_encoding R47). -/
theorem opcode_push {i : Instr} (h : 1 ≤ i.immBytes) : i.opcode = BitVec.ofNat 8 (0x5F + i.immBytes) := by
  cases i <;> first | rfl | (simp [Instr.immBytes] at h)

theorem decodeOpcode_push {n : Nat} (h1 : 1 ≤ n) (h2 : n ≤ 32) : decodeOpcode (0x5F + n) = some (.push n) := by
  interval_cases n <;> rfl

/-- Every byte the opcode map knows, with its row. -/
theorem decodeOpcode_cases {op : Nat} {k : Opcode} (h : decodeOpcode op = some k) :
    (op = 0 ∧ k = .stop) ∨ (op = 1 ∧ k = .add) ∨ (op = 2 ∧ k = .mul) ∨ (op = 3 ∧ k = .sub) ∨ (op = 4 ∧ k = .div) ∨
    (∃ n, 1 ≤ n ∧ n ≤ 32 ∧ op = 0x5F + n ∧ k = .push n) := by
  unfold decodeOpcode at h
  split_ifs at h with h0 h1 h2 h3 h4 h5 <;> simp only [Option.some.injEq] at h <;> subst h
  · simp [h0]
  · simp [h1]
  · simp [h2]
  · simp [h3]
  · simp [h4]
  · right; right; right; right; right
    exact ⟨op - 0x5F, by omega, by omega, by omega, rfl⟩

/-- Decoding at the opcode of PUSH(n). -/
theorem decode_push {n : Nat} (h1 : 1 ≤ n) (h2 : n ≤ 32) (rest : List Byte) :
    decode (BitVec.ofNat 8 (0x5F + n) :: rest) =
      if rest.length < n then .refused (.truncated (BitVec.ofNat 8 (0x5F + n)) rest.length)
      else
        match mkPush n (beWord (rest.take n)) with
        | some i => .ok i (rest.drop n)
        | none => .refused (.illegal (BitVec.ofNat 8 (0x5F + n))) := by
  have hop : (BitVec.ofNat 8 (0x5F + n)).toNat = 0x5F + n := by
    rw [BitVec.toNat_ofNat]; apply Nat.mod_eq_of_lt; omega
  simp only [decode, hop, decodeOpcode_push h1 h2] <;> rfl

/-- Decoding at the opcode of PUSH(n) when the immediate is there. -/
theorem decode_push_ok {n : Nat} (h1 : 1 ≤ n) (h2 : n ≤ 32) {rest : List Byte} (h : n ≤ rest.length) :
    ∃ i, decode (BitVec.ofNat 8 (0x5F + n) :: rest) = .ok i (rest.drop n) ∧ i.immBytes = n ∧
      i.imm = beWord (rest.take n) := by
  obtain ⟨i, hi, hn, hv⟩ := mkPush_isSome h1 h2 (beWord (rest.take n))
  refine ⟨i, ?_, hn, hv⟩
  rw [decode_push h1 h2, if_neg (by omega), hi]

/-- With enough bytes after the opcode, decoding fails only on an illegal opcode byte. -/
theorem decode_refused {op : Byte} {rest : List Byte} (hr : 32 ≤ rest.length) {e : DecodeError}
    (h : decode (op :: rest) = .refused e) : decodeOpcode op.toNat = none := by
  cases hk : decodeOpcode op.toNat with
  | none => rfl
  | some k =>
    exfalso
    rcases decodeOpcode_cases hk with ⟨_, rfl⟩ | ⟨_, rfl⟩ | ⟨_, rfl⟩ | ⟨_, rfl⟩ | ⟨_, rfl⟩ | ⟨n, h1, h2, _, rfl⟩
    · simp [decode, hk] at h
    · simp [decode, hk] at h
    · simp [decode, hk] at h
    · simp [decode, hk] at h
    · simp [decode, hk] at h
    · obtain ⟨i, hi, -, -⟩ := mkPush_isSome h1 h2 (beWord (rest.take n))
      have hn : ¬ rest.length < n := by omega
      simp [decode, hk, hn, hi] at h

theorem decode_illegal {op : Byte} (h : decodeOpcode op.toNat = none) (rest : List Byte) :
    decode (op :: rest) = .refused (.illegal op) := by
  simp [decode, h]

/-- Everything a successful decoding can be: the opcode byte is the instruction's, and its immediate, if it has one, is the
value of the bytes after it. -/
theorem decode_ok_cases {op : Byte} {rest r : List Byte} {i : Instr} (h : decode (op :: rest) = .ok i r) :
    (i.immBytes = 0 ∧ op = i.opcode ∧ r = rest) ∨
    (1 ≤ i.immBytes ∧ i.immBytes ≤ 32 ∧ op = BitVec.ofNat 8 (0x5F + i.immBytes) ∧ i.immBytes ≤ rest.length ∧
      i.imm = beWord (rest.take i.immBytes) ∧ r = rest.drop i.immBytes) := by
  have toByte : ∀ n : Nat, op.toNat = n → op = BitVec.ofNat 8 n := by
    intro n hn
    apply BitVec.eq_of_toNat_eq
    rw [BitVec.toNat_ofNat, ← hn, Nat.mod_eq_of_lt op.isLt]
  cases hk : decodeOpcode op.toNat with
  | none => simp [decode, hk] at h
  | some k =>
    rcases decodeOpcode_cases hk with ⟨ho, rfl⟩ | ⟨ho, rfl⟩ | ⟨ho, rfl⟩ | ⟨ho, rfl⟩ | ⟨ho, rfl⟩ | ⟨n, h1, h2, ho, rfl⟩
    · simp only [decode, hk, Decoded.ok.injEq] at h
      obtain ⟨rfl, rfl⟩ := h; exact .inl ⟨rfl, toByte _ ho, rfl⟩
    · simp only [decode, hk, Decoded.ok.injEq] at h
      obtain ⟨rfl, rfl⟩ := h; exact .inl ⟨rfl, toByte _ ho, rfl⟩
    · simp only [decode, hk, Decoded.ok.injEq] at h
      obtain ⟨rfl, rfl⟩ := h; exact .inl ⟨rfl, toByte _ ho, rfl⟩
    · simp only [decode, hk, Decoded.ok.injEq] at h
      obtain ⟨rfl, rfl⟩ := h; exact .inl ⟨rfl, toByte _ ho, rfl⟩
    · simp only [decode, hk, Decoded.ok.injEq] at h
      obtain ⟨rfl, rfl⟩ := h; exact .inl ⟨rfl, toByte _ ho, rfl⟩
    · right
      obtain ⟨j, hj, hn, hv⟩ := mkPush_isSome h1 h2 (beWord (rest.take n))
      by_cases hl : rest.length < n
      · simp [decode, hk, hl] at h
      · simp only [decode, hk, hl, if_false, hj, Decoded.ok.injEq] at h
        obtain ⟨rfl, rfl⟩ := h
        subst hn
        exact ⟨h1, h2, toByte _ ho, by omega, hv, rfl⟩

@[simp] theorem length_leBytes (count w : Nat) : (leBytes count w).length = count := by
  induction count generalizing w with
  | zero => rfl
  | succ k ih => simp [leBytes, ih]

@[simp] theorem length_tableBytes (nbits w : Nat) : (tableBytes nbits w).length = maxLength := by
  simp [tableBytes]

end Sys2Proof
end

