-- ==== Sys2Proof/Laws/Memory.lean ====
section
/-! SUPPORT. The laws of the code space: a byte placed is read back, every other byte reads as before, and every operation
keeps the canonical form. -/

namespace Sys2Proof.Machine

theorem read_erase (m : Memory) (a b : Nat) :
    Memory.read (Memory.erase m a) b = if b = a then unlisted else Memory.read m b := by
  induction m with
  | nil => simp [Memory.erase, Memory.read]
  | cons c rest ih =>
    obtain ⟨x, v⟩ := c
    by_cases hx : x = a
    · subst hx
      simp only [Memory.erase, if_true, ih, Memory.read]
      by_cases hb : b = x
      · simp [hb]
      · simp [hb, Ne.symm hb]
    · simp only [Memory.erase, hx, if_false, Memory.read, ih]
      by_cases hb : x = b
      · subst hb; simp [hx]
      · simp [hb]

theorem read_insert (m : Memory) (a : Nat) (v : Byte) (b : Nat) :
    Memory.read (Memory.insert m a v) b = if b = a then v else Memory.read m b := by
  induction m with
  | nil => by_cases hb : a = b <;> simp [Memory.insert, Memory.read, hb, eq_comm]
  | cons c rest ih =>
    obtain ⟨x, w⟩ := c
    by_cases hlt : a < x
    · rw [Memory.insert, if_pos hlt]
      by_cases hb : a = b <;> simp [Memory.read, hb, eq_comm]
    · by_cases hx : a = x
      · subst hx
        by_cases hb : a = b
        · simp [Memory.insert, Memory.read, hb]
        · simp [Memory.insert, Memory.read, hb, Ne.symm hb]
      · simp only [Memory.insert, hlt, hx, if_false, Memory.read, ih]
        by_cases hb : x = b
        · subst hb; simp [Ne.symm hx]
        · simp [hb]

theorem read_write (m : Memory) (a : Nat) (v : Byte) (b : Nat) :
    Memory.read (Memory.write m a v) b = if b = a then v else Memory.read m b := by
  unfold Memory.write
  split
  · rename_i h; rw [read_erase, h]
  · exact read_insert m a v b

theorem read_write_same (m : Memory) (a : Nat) (v : Byte) : Memory.read (Memory.write m a v) a = v := by
  simp [read_write]

theorem read_write_other (m : Memory) {a b : Nat} (v : Byte) (h : b ≠ a) :
    Memory.read (Memory.write m a v) b = Memory.read m b := by
  simp [read_write, h]

/-- Placed bytes are read back at their addresses, and every other address reads as before. -/
theorem read_place (bs : List Byte) : ∀ (m : Memory) (a b : Nat),
    Memory.read (Memory.place m a bs) b =
      if a ≤ b ∧ b < a + bs.length then bs.getD (b - a) 0 else Memory.read m b := by
  induction bs with
  | nil =>
    intro m a b
    rw [if_neg (by simp)]
    rfl
  | cons c rest ih =>
    intro m a b
    simp only [Memory.place, ih, read_write, List.length_cons]
    by_cases hb : b = a
    · subst hb; simp
    · by_cases h : a + 1 ≤ b ∧ b < a + 1 + rest.length
      · have h2 : a ≤ b ∧ b < a + (rest.length + 1) := by omega
        have h3 : b - a = (b - (a + 1)) + 1 := by omega
        rw [if_pos h, if_pos h2, h3, List.getD_cons_succ]
      · have h2 : ¬ (a ≤ b ∧ b < a + (rest.length + 1)) := by omega
        rw [if_neg h, if_neg h2, if_neg hb]

theorem mem_erase {m : Memory} {a : Nat} {c : Host.Cell} (h : c ∈ Memory.erase m a) : c ∈ m := by
  induction m with
  | nil => simp [Memory.erase] at h
  | cons d rest ih =>
    obtain ⟨x, v⟩ := d
    by_cases hx : x = a
    · simp only [Memory.erase, hx, if_true] at h
      exact List.mem_cons_of_mem _ (ih h)
    · simp only [Memory.erase, hx, if_false, List.mem_cons] at h
      rcases h with h | h
      · simp [h]
      · exact List.mem_cons_of_mem _ (ih h)

theorem mem_insert {m : Memory} {a : Nat} {v : Byte} {c : Host.Cell} (h : c ∈ Memory.insert m a v) :
    c = (a, v) ∨ c ∈ m := by
  induction m with
  | nil => simpa [Memory.insert] using h
  | cons d rest ih =>
    obtain ⟨x, w⟩ := d
    by_cases hlt : a < x
    · simpa [Memory.insert, hlt] using h
    · by_cases hx : a = x
      · rw [Memory.insert, if_neg hlt, if_pos hx, List.mem_cons] at h
        rcases h with h | h
        · left; exact h
        · right; exact List.mem_cons_of_mem _ h
      · simp only [Memory.insert, hlt, hx, if_false, List.mem_cons] at h
        rcases h with h | h
        · right; simp [h]
        · rcases ih h with h | h
          · exact .inl h
          · exact .inr (List.mem_cons_of_mem _ h)

theorem erase_wf {m : Memory} (h : Memory.wf m) (a : Nat) : Memory.wf (Memory.erase m a) := by
  refine ⟨?_, fun c hc => h.2 c (mem_erase hc)⟩
  induction m with
  | nil => simp [Memory.erase]
  | cons d rest ih =>
    obtain ⟨x, v⟩ := d
    have hp := List.pairwise_cons.mp h.1
    have hr := ih ⟨hp.2, fun c hc => h.2 c (List.mem_cons_of_mem _ hc)⟩
    by_cases hx : x = a
    · simpa [Memory.erase, hx] using hr
    · simp only [Memory.erase, hx, if_false]
      exact List.pairwise_cons.mpr ⟨fun c hc => hp.1 c (mem_erase hc), hr⟩

theorem insert_wf {m : Memory} (h : Memory.wf m) (a : Nat) {v : Byte} (hv : v ≠ unlisted) :
    Memory.wf (Memory.insert m a v) := by
  refine ⟨?_, fun c hc => ?_⟩
  · induction m with
    | nil => simp [Memory.insert]
    | cons d rest ih =>
      obtain ⟨x, w⟩ := d
      have hp := List.pairwise_cons.mp h.1
      have hr := ih ⟨hp.2, fun c hc => h.2 c (List.mem_cons_of_mem _ hc)⟩
      by_cases hlt : a < x
      · simp only [Memory.insert, hlt, if_true]
        refine List.pairwise_cons.mpr ⟨fun c hc => ?_, h.1⟩
        rcases List.mem_cons.mp hc with hc | hc
        · rw [hc]; exact hlt
        · exact Nat.lt_trans hlt (hp.1 c hc)
      · by_cases hx : a = x
        · rw [Memory.insert, if_neg hlt, if_pos hx]
          subst hx
          exact List.pairwise_cons.mpr ⟨fun c hc => hp.1 c hc, hp.2⟩
        · simp only [Memory.insert, hlt, hx, if_false]
          refine List.pairwise_cons.mpr ⟨fun c hc => ?_, hr⟩
          rcases mem_insert hc with hc | hc
          · rw [hc]; show x < a; omega
          · exact hp.1 c hc
  · rcases mem_insert hc with hc | hc
    · rw [hc]; exact hv
    · exact h.2 c hc

theorem write_wf {m : Memory} (h : Memory.wf m) (a : Nat) (v : Byte) : Memory.wf (Memory.write m a v) := by
  unfold Memory.write
  split
  · exact erase_wf h a
  · exact insert_wf h a ‹_›

theorem place_wf {m : Memory} (h : Memory.wf m) (a : Nat) (bs : List Byte) : Memory.wf (Memory.place m a bs) := by
  induction bs generalizing m a with
  | nil => exact h
  | cons b rest ih => exact ih (write_wf h a b) (a + 1)

/-- A cell of what is left after placing bytes was there before or is one of the bytes placed. -/
theorem mem_place {c : Host.Cell} (bs : List Byte) : ∀ (m : Memory) (a : Nat),
    c ∈ Memory.place m a bs → c ∈ m ∨ (a ≤ c.1 ∧ c.1 < a + bs.length) := by
  induction bs with
  | nil => intro m a h; exact .inl h
  | cons b rest ih =>
    intro m a h
    rcases ih _ _ h with h | h
    · have hw : c ∈ m ∨ c.1 = a := by
        unfold Memory.write at h
        split at h
        · exact .inl (mem_erase h)
        · rcases mem_insert h with h | h
          · right; rw [h]
          · exact .inl h
      rcases hw with hw | hw
      · exact .inl hw
      · right; simp; omega
    · right; simp; omega

theorem reset_code_wf : Memory.wf State.reset.code := by decide

end Sys2Proof.Machine
end

