-- ==== Sys2Proof/Laws/State.lean ====
section
/-! SUPPORT. One lemma per field per named update of the state, so that no proof unfolds a record update. -/

namespace Sys2Proof.Machine

@[simp] theorem raise_cfg (k : FailureKind) (s : State) : (raise k s).cfg = s.cfg := rfl
@[simp] theorem raise_code (k : FailureKind) (s : State) : (raise k s).code = s.code := rfl
@[simp] theorem raise_codeLen (k : FailureKind) (s : State) : (raise k s).codeLen = s.codeLen := rfl
@[simp] theorem raise_pc (k : FailureKind) (s : State) : (raise k s).pc = s.pc := rfl
@[simp] theorem raise_gas (k : FailureKind) (s : State) : (raise k s).gas = s.gas := rfl
@[simp] theorem raise_stack (k : FailureKind) (s : State) : (raise k s).stack = s.stack := rfl
@[simp] theorem raise_status (k : FailureKind) (s : State) : (raise k s).status = .failure k := rfl

@[simp] theorem haltSuccess_cfg (s : State) : (haltSuccess s).cfg = s.cfg := rfl
@[simp] theorem haltSuccess_code (s : State) : (haltSuccess s).code = s.code := rfl
@[simp] theorem haltSuccess_codeLen (s : State) : (haltSuccess s).codeLen = s.codeLen := rfl
@[simp] theorem haltSuccess_pc (s : State) : (haltSuccess s).pc = s.pc := rfl
@[simp] theorem haltSuccess_gas (s : State) : (haltSuccess s).gas = s.gas := rfl
@[simp] theorem haltSuccess_stack (s : State) : (haltSuccess s).stack = s.stack := rfl
@[simp] theorem haltSuccess_status (s : State) : (haltSuccess s).status = .success := rfl

@[simp] theorem passOpcode_cfg (s : State) : (passOpcode s).cfg = s.cfg := rfl
@[simp] theorem passOpcode_code (s : State) : (passOpcode s).code = s.code := rfl
@[simp] theorem passOpcode_codeLen (s : State) : (passOpcode s).codeLen = s.codeLen := rfl
@[simp] theorem passOpcode_pc (s : State) : (passOpcode s).pc = s.pc + 1 := rfl
@[simp] theorem passOpcode_gas (s : State) : (passOpcode s).gas = s.gas := rfl
@[simp] theorem passOpcode_stack (s : State) : (passOpcode s).stack = s.stack := rfl
@[simp] theorem passOpcode_status (s : State) : (passOpcode s).status = s.status := rfl

@[simp] theorem endOfCodeStep_cfg (s : State) : (endOfCodeStep s).cfg = s.cfg := rfl
@[simp] theorem endOfCodeStep_code (s : State) : (endOfCodeStep s).code = s.code := rfl
@[simp] theorem endOfCodeStep_codeLen (s : State) : (endOfCodeStep s).codeLen = s.codeLen := rfl
@[simp] theorem endOfCodeStep_pc (s : State) : (endOfCodeStep s).pc = s.pc := rfl
@[simp] theorem endOfCodeStep_gas (s : State) : (endOfCodeStep s).gas = s.gas := rfl
@[simp] theorem endOfCodeStep_stack (s : State) : (endOfCodeStep s).stack = s.stack := rfl
@[simp] theorem endOfCodeStep_status (s : State) : (endOfCodeStep s).status = .success := rfl

@[simp] theorem illegalStep_cfg (s : State) : (illegalStep s).cfg = s.cfg := rfl
@[simp] theorem illegalStep_code (s : State) : (illegalStep s).code = s.code := rfl
@[simp] theorem illegalStep_codeLen (s : State) : (illegalStep s).codeLen = s.codeLen := rfl
@[simp] theorem illegalStep_pc (s : State) : (illegalStep s).pc = s.pc + 1 := rfl
@[simp] theorem illegalStep_gas (s : State) : (illegalStep s).gas = s.gas := rfl
@[simp] theorem illegalStep_stack (s : State) : (illegalStep s).stack = s.stack := rfl
@[simp] theorem illegalStep_status (s : State) : (illegalStep s).status = .failure .invalidOpcode := rfl

@[simp] theorem haltedStep_eq (s : State) : haltedStep s = s := rfl

@[simp] theorem resetWith_cfg (h : HostInput) : (resetWith h).cfg = h.cfg := rfl
@[simp] theorem resetWith_code (h : HostInput) : (resetWith h).code = Memory.place [] 0 h.bytecode := rfl
@[simp] theorem resetWith_codeLen (h : HostInput) : (resetWith h).codeLen = h.bytecode.length := rfl
@[simp] theorem resetWith_pc (h : HostInput) : (resetWith h).pc = 0 := rfl
@[simp] theorem resetWith_gas (h : HostInput) : (resetWith h).gas = h.initialGas := rfl
@[simp] theorem resetWith_stack (h : HostInput) : (resetWith h).stack = [] := rfl
@[simp] theorem resetWith_status (h : HostInput) : (resetWith h).status = .running := rfl

@[simp] theorem withFetchWord_cfg (s : State) (nbits w : Nat) : (s.withFetchWord nbits w).cfg = s.cfg := rfl
@[simp] theorem withFetchWord_code (s : State) (nbits w : Nat) : (s.withFetchWord nbits w).code = Memory.place s.code s.pc (tableBytes nbits w) := rfl
@[simp] theorem withFetchWord_codeLen (s : State) (nbits w : Nat) : (s.withFetchWord nbits w).codeLen = max s.codeLen (s.pc + maxLength) := rfl
@[simp] theorem withFetchWord_pc (s : State) (nbits w : Nat) : (s.withFetchWord nbits w).pc = s.pc := rfl
@[simp] theorem withFetchWord_gas (s : State) (nbits w : Nat) : (s.withFetchWord nbits w).gas = s.gas := rfl
@[simp] theorem withFetchWord_stack (s : State) (nbits w : Nat) : (s.withFetchWord nbits w).stack = s.stack := rfl
@[simp] theorem withFetchWord_status (s : State) (nbits w : Nat) : (s.withFetchWord nbits w).status = .running := rfl

@[simp] theorem sp_eq (s : State) : s.sp = s.stack.length := rfl

end Sys2Proof.Machine
end

