-- ==== Sys2Proof/Laws/Ops.lean ====
section
/-! SUPPORT. What each shared operation can do, said once, and the meanings of whole families over them. -/

namespace Sys2Proof.Machine

open Host (Outcome)

theorem consume_stopped {c : Nat} {s : State} (h : s.gas < c) : consume c s = .stopped (raise .outOfGas s) := by
  simp [consume, h]

theorem consume_go {c : Nat} {s : State} (h : c ≤ s.gas) : consume c s = .go { s with gas := s.gas - c } := by
  simp [consume, Nat.not_lt.mpr h]

theorem push_stopped {w : Word} {s : State} (h : s.stack.length = s.cfg.stackDepth) :
    push w s = .stopped (raise .stackOverflow s) := by
  simp [push, h]

theorem push_go {w : Word} {s : State} (h : s.stack.length ≠ s.cfg.stackDepth) :
    push w s = .go { s with stack := s.stack ++ [w] } := by
  simp [push, h]

/-- A stack of two Words or more ends in its top two. -/
theorem exists_top_two {st : List Word} (h : 2 ≤ st.length) : ∃ below n2 n1, st = below ++ [n2, n1] := by
  refine ⟨st.take (st.length - 2), st[st.length - 2], st[st.length - 1], ?_⟩
  apply List.ext_getElem
  · simp; omega
  · intro i h1 h2
    rcases Nat.lt_or_ge i (st.length - 2) with hi | hi
    · rw [List.getElem_append_left (by simp; omega)]; simp
    · rw [List.getElem_append_right (by simp; omega)]
      have hi2 : i = st.length - 2 ∨ i = st.length - 1 := by omega
      rcases hi2 with rfl | rfl
      · simp
      · have h3 : st.length - 1 - (st.length - 2) = 1 := by omega
        simp [h3]

theorem popTwo_go {s : State} {below : List Word} {n1 n2 : Word} (h : s.stack = below ++ [n2, n1]) :
    popTwo s = .go { n1 := n1, n2 := n2, after := { s with stack := below } } := by
  simp [popTwo, h]

theorem popTwo_stopped {s : State} (h : s.stack.length < 2) : popTwo s = .stopped (raise .stackUnderflow s) := by
  rcases hs : s.stack with _ | ⟨a, _ | ⟨b, rest⟩⟩
  · simp [popTwo, hs]
  · simp [popTwo, hs]
  · rw [hs] at h; simp at h

theorem binaryOp_outOfGas {c : Nat} {s : State} (f : Word → Word → Word) (hg : s.gas < c) :
    binaryOp c f s = .next { s with pc := s.pc + 1, status := .failure .outOfGas } := by
  have hc := consume_stopped (c := c) (s := passOpcode s) hg
  simp only [binaryOp, hc]
  rfl

theorem binaryOp_underflow {c : Nat} {s : State} (f : Word → Word → Word) (hg : c ≤ s.gas) (hs : s.stack.length < 2) :
    binaryOp c f s = .next { s with pc := s.pc + 1, gas := s.gas - c, status := .failure .stackUnderflow } := by
  have hc := consume_go (c := c) (s := passOpcode s) hg
  have hp := popTwo_stopped (s := { passOpcode s with gas := s.gas - c }) hs
  simp only [binaryOp, hc, passOpcode_gas, hp]
  rfl

/-- What `binaryOp` does with its cost and its two operands there. -/
theorem binaryOp_go {c : Nat} {s : State} (f : Word → Word → Word) {below : List Word} {n1 n2 : Word} (hg : c ≤ s.gas)
    (hs : s.stack = below ++ [n2, n1]) :
    binaryOp c f s = .next
      (if below.length = s.cfg.stackDepth then
        { s with pc := s.pc + 1, gas := s.gas - c, stack := below, status := .failure .stackOverflow }
       else { s with pc := s.pc + 1, gas := s.gas - c, stack := below ++ [f n1 n2] }) := by
  have hc := consume_go (c := c) (s := passOpcode s) hg
  have hp := popTwo_go (s := { passOpcode s with gas := s.gas - c }) hs
  split
  · rename_i hd
    simp only [binaryOp, hc, passOpcode_gas, hp, push_stopped (s := { passOpcode s with gas := s.gas - c, stack := below }) hd]
    rfl
  · rename_i hd
    simp only [binaryOp, hc, passOpcode_gas, hp, push_go (s := { passOpcode s with gas := s.gas - c, stack := below }) hd]
    rfl

/-- Everything `binaryOp` can do, by the state it starts in. -/
theorem binaryOp_cases (c : Nat) (f : Word → Word → Word) (s : State) :
    (s.gas < c ∧ binaryOp c f s = .next { s with pc := s.pc + 1, status := .failure .outOfGas }) ∨
    (c ≤ s.gas ∧ s.stack.length < 2 ∧
      binaryOp c f s = .next { s with pc := s.pc + 1, gas := s.gas - c, status := .failure .stackUnderflow }) ∨
    (∃ below n2 n1, c ≤ s.gas ∧ s.stack = below ++ [n2, n1] ∧ below.length = s.cfg.stackDepth ∧
      binaryOp c f s = .next
        { s with pc := s.pc + 1, gas := s.gas - c, stack := below, status := .failure .stackOverflow }) ∨
    (∃ below n2 n1, c ≤ s.gas ∧ s.stack = below ++ [n2, n1] ∧ below.length ≠ s.cfg.stackDepth ∧
      binaryOp c f s = .next { s with pc := s.pc + 1, gas := s.gas - c, stack := below ++ [f n1 n2] }) := by
  rcases Nat.lt_or_ge s.gas c with hg | hg
  · exact .inl ⟨hg, binaryOp_outOfGas f hg⟩
  · rcases Nat.lt_or_ge s.stack.length 2 with hs | hs
    · exact .inr (.inl ⟨hg, hs, binaryOp_underflow f hg hs⟩)
    · obtain ⟨below, n2, n1, hst⟩ := exists_top_two hs
      have hb := binaryOp_go f hg hst
      by_cases hd : below.length = s.cfg.stackDepth
      · rw [if_pos hd] at hb
        exact .inr (.inr (.inl ⟨below, n2, n1, hg, hst, hd, hb⟩))
      · rw [if_neg hd] at hb
        exact .inr (.inr (.inr ⟨below, n2, n1, hg, hst, hd, hb⟩))

/-- Everything `pushOp` can do, as one equation. -/
theorem pushOp_eq (c n : Nat) (v : Word) (s : State) :
    pushOp c n v s = .next
      (if s.gas < c then { s with pc := s.pc + 1, status := .failure .outOfGas }
       else if s.codeLen - (s.pc + 1) < n then
        { s with pc := s.pc + 1, gas := s.gas - c, status := .failure .unexpectedEndOfBytecode }
       else if s.stack.length = s.cfg.stackDepth then
        { s with pc := s.pc + 1, gas := s.gas - c, status := .failure .stackOverflow }
       else { s with pc := s.pc + 1 + n, gas := s.gas - c, stack := s.stack ++ [v] }) := by
  unfold pushOp consume
  by_cases hg : s.gas < c
  · simp [hg, raise, passOpcode]
  · by_cases hn : s.codeLen - (s.pc + 1) < n
    · simp [hg, hn, raise, passOpcode, requireImmediate]
    · by_cases hd : s.stack.length = s.cfg.stackDepth
      · simp [hg, hn, hd, raise, passOpcode, requireImmediate, push]
      · simp [hg, hn, hd, passOpcode, requireImmediate, push]

theorem exec_stop_eq (s : State) : exec .stop s = .next { s with pc := s.pc + 1, status := .success } := by
  simp [exec, execStop, staticCost, consume, passOpcode, haltSuccess]

/-- An instruction without immediate is STOP or one of the four arithmetic instructions. -/
theorem format_op_cases {i : Instr} (h : i.immBytes = 0) :
    i = .stop ∨ i = .add ∨ i = .mul ∨ i = .sub ∨ i = .div := by
  cases i <;> simp_all [Instr.immBytes]

/-- Every instruction with an immediate is `pushOp` at its own cost, length and immediate. -/
theorem exec_eq_pushOp {i : Instr} (h : 1 ≤ i.immBytes) (s : State) :
    exec i s = pushOp (staticCost s.cfg i) i.immBytes i.imm s := by
  cases i <;> first | rfl | (simp [Instr.immBytes] at h)

/-- The result of an arithmetic instruction on the top and the second from top; 0 for the others, which have none. -/
def arithResult (i : Instr) (n1 n2 : Word) : Word :=
  match i with
  | .add => wordAdd n1 n2
  | .mul => wordMul n1 n2
  | .sub => wordSub n2 n1
  | .div => wordDiv n2 n1
  | _ => 0

/-- Every arithmetic instruction is `binaryOp` at its own cost and result. -/
theorem exec_eq_binaryOp {i : Instr} (h : i = .add ∨ i = .mul ∨ i = .sub ∨ i = .div) (s : State) :
    exec i s = binaryOp (staticCost s.cfg i) (arithResult i) s := by
  rcases h with rfl | rfl | rfl | rfl <;> rfl

theorem immBytes_le (i : Instr) : i.immBytes ≤ 32 := by cases i <;> simp [Instr.immBytes]

end Sys2Proof.Machine
end

