-- ==== Sys2Proof/Laws/PerInstr.lean ====
section
/-! SUPPORT. The statements made of every instruction as syntax, one lemma per constructor. -/

namespace Sys2Proof.Laws.OpcodeRow

/-- The instruction's row of the opcode map: its opcode byte selects STOP, ADD, MUL, SUB or DIV and nothing follows it, or it
selects PUSH(n) and exactly n bytes follow it; and its encoding is as long as its length says (30_encoding R48, R51). -/
def Statement (i : Instr) : Prop :=
  (encode i).length = i.length ∧ (encode i).head? = some i.opcode ∧
  (if i.immBytes = 0 then ∀ rest, decode (i.opcode :: rest) = .ok i rest
   else decodeOpcode i.opcode.toNat = some (.push i.immBytes) ∧ mkPush i.immBytes i.imm = some i)

theorem stop : Statement .stop := ⟨rfl, rfl, fun _ => rfl⟩

theorem add : Statement .add := ⟨rfl, rfl, fun _ => rfl⟩

theorem mul : Statement .mul := ⟨rfl, rfl, fun _ => rfl⟩

theorem sub : Statement .sub := ⟨rfl, rfl, fun _ => rfl⟩

theorem div : Statement .div := ⟨rfl, rfl, fun _ => rfl⟩

theorem push1 (imm : Word) : Statement (.push1 imm) := ⟨by simp [encode, Instr.length, Nat.add_comm], rfl, rfl, rfl⟩

theorem push2 (imm : Word) : Statement (.push2 imm) := ⟨by simp [encode, Instr.length, Nat.add_comm], rfl, rfl, rfl⟩

theorem push3 (imm : Word) : Statement (.push3 imm) := ⟨by simp [encode, Instr.length, Nat.add_comm], rfl, rfl, rfl⟩

theorem push4 (imm : Word) : Statement (.push4 imm) := ⟨by simp [encode, Instr.length, Nat.add_comm], rfl, rfl, rfl⟩

theorem push5 (imm : Word) : Statement (.push5 imm) := ⟨by simp [encode, Instr.length, Nat.add_comm], rfl, rfl, rfl⟩

theorem push6 (imm : Word) : Statement (.push6 imm) := ⟨by simp [encode, Instr.length, Nat.add_comm], rfl, rfl, rfl⟩

theorem push7 (imm : Word) : Statement (.push7 imm) := ⟨by simp [encode, Instr.length, Nat.add_comm], rfl, rfl, rfl⟩

theorem push8 (imm : Word) : Statement (.push8 imm) := ⟨by simp [encode, Instr.length, Nat.add_comm], rfl, rfl, rfl⟩

theorem push9 (imm : Word) : Statement (.push9 imm) := ⟨by simp [encode, Instr.length, Nat.add_comm], rfl, rfl, rfl⟩

theorem push10 (imm : Word) : Statement (.push10 imm) := ⟨by simp [encode, Instr.length, Nat.add_comm], rfl, rfl, rfl⟩

theorem push11 (imm : Word) : Statement (.push11 imm) := ⟨by simp [encode, Instr.length, Nat.add_comm], rfl, rfl, rfl⟩

theorem push12 (imm : Word) : Statement (.push12 imm) := ⟨by simp [encode, Instr.length, Nat.add_comm], rfl, rfl, rfl⟩

theorem push13 (imm : Word) : Statement (.push13 imm) := ⟨by simp [encode, Instr.length, Nat.add_comm], rfl, rfl, rfl⟩

theorem push14 (imm : Word) : Statement (.push14 imm) := ⟨by simp [encode, Instr.length, Nat.add_comm], rfl, rfl, rfl⟩

theorem push15 (imm : Word) : Statement (.push15 imm) := ⟨by simp [encode, Instr.length, Nat.add_comm], rfl, rfl, rfl⟩

theorem push16 (imm : Word) : Statement (.push16 imm) := ⟨by simp [encode, Instr.length, Nat.add_comm], rfl, rfl, rfl⟩

theorem push17 (imm : Word) : Statement (.push17 imm) := ⟨by simp [encode, Instr.length, Nat.add_comm], rfl, rfl, rfl⟩

theorem push18 (imm : Word) : Statement (.push18 imm) := ⟨by simp [encode, Instr.length, Nat.add_comm], rfl, rfl, rfl⟩

theorem push19 (imm : Word) : Statement (.push19 imm) := ⟨by simp [encode, Instr.length, Nat.add_comm], rfl, rfl, rfl⟩

theorem push20 (imm : Word) : Statement (.push20 imm) := ⟨by simp [encode, Instr.length, Nat.add_comm], rfl, rfl, rfl⟩

theorem push21 (imm : Word) : Statement (.push21 imm) := ⟨by simp [encode, Instr.length, Nat.add_comm], rfl, rfl, rfl⟩

theorem push22 (imm : Word) : Statement (.push22 imm) := ⟨by simp [encode, Instr.length, Nat.add_comm], rfl, rfl, rfl⟩

theorem push23 (imm : Word) : Statement (.push23 imm) := ⟨by simp [encode, Instr.length, Nat.add_comm], rfl, rfl, rfl⟩

theorem push24 (imm : Word) : Statement (.push24 imm) := ⟨by simp [encode, Instr.length, Nat.add_comm], rfl, rfl, rfl⟩

theorem push25 (imm : Word) : Statement (.push25 imm) := ⟨by simp [encode, Instr.length, Nat.add_comm], rfl, rfl, rfl⟩

theorem push26 (imm : Word) : Statement (.push26 imm) := ⟨by simp [encode, Instr.length, Nat.add_comm], rfl, rfl, rfl⟩

theorem push27 (imm : Word) : Statement (.push27 imm) := ⟨by simp [encode, Instr.length, Nat.add_comm], rfl, rfl, rfl⟩

theorem push28 (imm : Word) : Statement (.push28 imm) := ⟨by simp [encode, Instr.length, Nat.add_comm], rfl, rfl, rfl⟩

theorem push29 (imm : Word) : Statement (.push29 imm) := ⟨by simp [encode, Instr.length, Nat.add_comm], rfl, rfl, rfl⟩

theorem push30 (imm : Word) : Statement (.push30 imm) := ⟨by simp [encode, Instr.length, Nat.add_comm], rfl, rfl, rfl⟩

theorem push31 (imm : Word) : Statement (.push31 imm) := ⟨by simp [encode, Instr.length, Nat.add_comm], rfl, rfl, rfl⟩

theorem push32 (imm : Word) : Statement (.push32 imm) := ⟨by simp [encode, Instr.length, Nat.add_comm], rfl, rfl, rfl⟩

end Sys2Proof.Laws.OpcodeRow
end

