-- ==== Sys2Proof/Laws/Step.lean ====
section
/-! SUPPORT. What the fetch, an instruction and a step can do, said once: every invariant is a case analysis over these. -/

namespace Sys2Proof.Machine

open Host (Outcome)

theorem codeByte_some {s : State} {a : Nat} {b : Byte} (h : codeByte s a = some b) :
    a < s.codeLen ∧ b = Memory.read s.code a := by
  unfold codeByte at h
  split at h
  · exact ⟨‹_›, (Option.some.inj h).symm⟩
  · simp at h

theorem codeByte_lt {s : State} {a : Nat} (h : a < s.codeLen) : codeByte s a = some (Memory.read s.code a) := by
  simp [codeByte, h]

@[simp] theorem length_decodeBytes (s : State) (a n : Nat) : (decodeBytes s a n).length = n := by
  induction n generalizing a with
  | zero => rfl
  | succ k ih => simp [decodeBytes, ih]

/-- Byte `k` of what the decoder is given. -/
theorem getElem?_decodeBytes (s : State) : ∀ (n a k : Nat), k < n →
    (decodeBytes s a n)[k]? = some ((codeByte s (a + k)).getD 0x00) := by
  intro n
  induction n with
  | zero => intro a k h; omega
  | succ m ih =>
    intro a k h
    cases k with
    | zero => simp [decodeBytes]
    | succ j =>
      simp only [decodeBytes, List.getElem?_cons_succ]
      rw [ih (a + 1) j (by omega)]
      congr 2
      rw [show a + 1 + j = a + (j + 1) by omega]

/-- What the fetch answers below `code_len`: the decoder's answer on the bytes from `pc`. -/
theorem fetch_eq {s : State} {op : Byte} (h : codeByte s s.pc = some op) :
    fetch s = match decode (op :: decodeBytes s (s.pc + 1) (maxLength - 1)) with
      | .ok i _ => .instr i
      | .refused _ => .illegal := by
  cases hd : decode (op :: decodeBytes s (s.pc + 1) (maxLength - 1)) <;> simp [fetch, h, hd]

theorem fetch_illegal {s : State} {op : Byte} (h : codeByte s s.pc = some op) (hop : decodeOpcode op.toNat = none) :
    fetch s = .illegal := by
  rw [fetch_eq h, decode_illegal hop]

/-- Everything a fetched instruction says of the code space. -/
theorem fetch_instr {s : State} {i : Instr} (h : fetch s = .instr i) :
    ∃ op rest, codeByte s s.pc = some op ∧ decode (op :: decodeBytes s (s.pc + 1) 32) = .ok i rest := by
  unfold fetch at h
  split at h
  · simp at h
  · rename_i op hop
    split at h
    · rename_i j rest hd
      refine ⟨op, rest, hop, ?_⟩
      cases h
      exact hd
    · simp at h

/-- Every way an instruction can leave the machine: the seven next states of 40_execution_loop R70, and the one that only a
stack above `STACK_DEPTH` can reach. -/
theorem exec_cases {i : Instr} {s t : State} (h : exec i s = .next t) :
    (i = .stop ∧ t = { s with pc := s.pc + 1, status := .success }) ∨
    (i ≠ .stop ∧ s.gas < staticCost s.cfg i ∧ t = { s with pc := s.pc + 1, status := .failure .outOfGas }) ∨
    ((i = .add ∨ i = .mul ∨ i = .sub ∨ i = .div) ∧ staticCost s.cfg i ≤ s.gas ∧
      ((s.stack.length < 2 ∧
          t = { s with pc := s.pc + 1, gas := s.gas - staticCost s.cfg i, status := .failure .stackUnderflow }) ∨
       (∃ below n2 n1, s.stack = below ++ [n2, n1] ∧ below.length = s.cfg.stackDepth ∧
          t = { s with pc := s.pc + 1, gas := s.gas - staticCost s.cfg i, stack := below, status := .failure .stackOverflow }) ∨
       (∃ below n2 n1, s.stack = below ++ [n2, n1] ∧ below.length ≠ s.cfg.stackDepth ∧
          t = { s with pc := s.pc + 1, gas := s.gas - staticCost s.cfg i, stack := below ++ [arithResult i n1 n2] }))) ∨
    (1 ≤ i.immBytes ∧ staticCost s.cfg i ≤ s.gas ∧
      ((s.codeLen - (s.pc + 1) < i.immBytes ∧
          t = { s with pc := s.pc + 1, gas := s.gas - staticCost s.cfg i, status := .failure .unexpectedEndOfBytecode }) ∨
       (s.pc + 1 + i.immBytes ≤ s.codeLen ∧ s.stack.length = s.cfg.stackDepth ∧
          t = { s with pc := s.pc + 1, gas := s.gas - staticCost s.cfg i, status := .failure .stackOverflow }) ∨
       (s.pc + 1 + i.immBytes ≤ s.codeLen ∧ s.stack.length ≠ s.cfg.stackDepth ∧
          t = { s with
            pc := s.pc + 1 + i.immBytes, gas := s.gas - staticCost s.cfg i, stack := s.stack ++ [i.imm] }))) := by
  rcases Nat.eq_zero_or_pos i.immBytes with h0 | h1
  · rcases format_op_cases h0 with rfl | ha
    · rw [exec_stop_eq] at h
      cases h
      exact .inl ⟨rfl, rfl⟩
    · have hne : i ≠ .stop := by rcases ha with rfl | rfl | rfl | rfl <;> simp
      rw [exec_eq_binaryOp ha] at h
      rcases binaryOp_cases (staticCost s.cfg i) (arithResult i) s with
        ⟨hg, he⟩ | ⟨hg, hs, he⟩ | ⟨below, n2, n1, hg, hs, hd, he⟩ | ⟨below, n2, n1, hg, hs, hd, he⟩ <;>
        (rw [he] at h; cases h)
      · exact .inr (.inl ⟨hne, hg, rfl⟩)
      · exact .inr (.inr (.inl ⟨ha, hg, .inl ⟨hs, rfl⟩⟩))
      · exact .inr (.inr (.inl ⟨ha, hg, .inr (.inl ⟨below, n2, n1, hs, hd, rfl⟩)⟩))
      · exact .inr (.inr (.inl ⟨ha, hg, .inr (.inr ⟨below, n2, n1, hs, hd, rfl⟩)⟩))
  · have hne : i ≠ .stop := by rintro rfl; simp [Instr.immBytes] at h1
    rw [exec_eq_pushOp h1, pushOp_eq] at h
    have ht := Outcome.next.inj h
    subst ht
    split_ifs with hg hn hd
    · exact .inr (.inl ⟨hne, hg, rfl⟩)
    · exact .inr (.inr (.inr ⟨h1, by omega, .inl ⟨hn, rfl⟩⟩))
    · exact .inr (.inr (.inr ⟨h1, by omega, .inr (.inl ⟨by omega, hd, rfl⟩)⟩))
    · exact .inr (.inr (.inr ⟨h1, by omega, .inr (.inr ⟨by omega, hd, rfl⟩)⟩))

/-- What a step does while the machine runs and there is code at `pc`. -/
theorem step_fetch {s : State} (hr : s.status = .running) (hp : s.pc < s.codeLen) :
    step s = match fetch s with
      | .instr i => exec i s
      | .illegal => .next (illegalStep s)
      | .outOfRange => .fault (.codeReadOutOfRange s.pc) := by
  cases hf : fetch s <;> simp [step, hr, endOfCode, Nat.not_le.mpr hp, hf]

/-- Everything a step that answers a next state can be. -/
theorem step_cases {s t : State} (h : step s = .next t) :
    (s.status ≠ .running ∧ t = s) ∨
    (s.status = .running ∧ s.codeLen ≤ s.pc ∧ t = { s with status := .success }) ∨
    (s.status = .running ∧ s.pc < s.codeLen ∧ fetch s = .illegal ∧
      t = { s with pc := s.pc + 1, status := .failure .invalidOpcode }) ∨
    (∃ i, s.status = .running ∧ s.pc < s.codeLen ∧ fetch s = .instr i ∧ exec i s = .next t) := by
  by_cases hr : s.status = .running
  · rcases Nat.lt_or_ge s.pc s.codeLen with hp | hp
    · rw [step_fetch hr hp] at h
      cases hf : fetch s with
      | instr i => rw [hf] at h; exact .inr (.inr (.inr ⟨i, hr, hp, rfl, h⟩))
      | illegal => rw [hf] at h; cases h; exact .inr (.inr (.inl ⟨hr, hp, rfl, rfl⟩))
      | outOfRange => rw [hf] at h; cases h
    · simp only [step, hr, endOfCode, decide_eq_true hp, if_true] at h
      cases h
      exact .inr (.inl ⟨hr, hp, rfl⟩)
  · left
    refine ⟨hr, ?_⟩
    unfold step at h
    split at h
    · exact absurd ‹_› hr
    · cases h; rfl
    · cases h; rfl

end Sys2Proof.Machine
end

