-- ==== Sys2Proof/Tests/Slice0.lean ====
section
/-! SUPPORT. The model's own tests. Every expected value is the spec's: its encoding tables, its worked examples
(95_test_vectors), and the examples inside 42_push R102 to R133. -/

namespace Sys2Proof.Tests

open Sys2Proof.Machine

/-- The machine after reset with these code bytes and this gas, at the spec's default parameters. -/
def start (code : List Byte) (gas : Nat) : State :=
  resetWith { cfg := Config.default, bytecode := code, initialGas := gas }

/-- A Running machine at pc 0 with this one-byte code, gas 10 and this stack (95_test_vectors section 2). -/
def atOp (op : Byte) (stack : List Word) : State := { start [op] 10 with stack := stack }

/-- `(status, pc, gas, stack)`, as 95_test_vectors writes a state. -/
def seen (o : Host.Outcome State Fault Refusal) : Option (Status × Nat × Nat × List Word) :=
  match o with
  | .next s => some (s.status, s.pc, s.gas, s.stack)
  | .fault _ => none
  | .refused _ => none

/-! WellFormed: an ill-formed term for each check. -/

theorem test_wf_accepts : (Instr.push1 255).wf ∧ (Instr.push2 65535).wf ∧ Instr.stop.wf ∧
    (Instr.push32 (BitVec.ofNat 256 (2 ^ 256 - 1))).wf := by decide

theorem test_wf_refuses_push1_to_push8 : ¬ (Instr.push1 (BitVec.ofNat 256 (2 ^ 8))).wf ∧
    ¬ (Instr.push2 (BitVec.ofNat 256 (2 ^ 16))).wf ∧
    ¬ (Instr.push3 (BitVec.ofNat 256 (2 ^ 24))).wf ∧
    ¬ (Instr.push4 (BitVec.ofNat 256 (2 ^ 32))).wf ∧
    ¬ (Instr.push5 (BitVec.ofNat 256 (2 ^ 40))).wf ∧
    ¬ (Instr.push6 (BitVec.ofNat 256 (2 ^ 48))).wf ∧
    ¬ (Instr.push7 (BitVec.ofNat 256 (2 ^ 56))).wf ∧
    ¬ (Instr.push8 (BitVec.ofNat 256 (2 ^ 64))).wf := by decide

theorem test_wf_refuses_push9_to_push16 : ¬ (Instr.push9 (BitVec.ofNat 256 (2 ^ 72))).wf ∧
    ¬ (Instr.push10 (BitVec.ofNat 256 (2 ^ 80))).wf ∧
    ¬ (Instr.push11 (BitVec.ofNat 256 (2 ^ 88))).wf ∧
    ¬ (Instr.push12 (BitVec.ofNat 256 (2 ^ 96))).wf ∧
    ¬ (Instr.push13 (BitVec.ofNat 256 (2 ^ 104))).wf ∧
    ¬ (Instr.push14 (BitVec.ofNat 256 (2 ^ 112))).wf ∧
    ¬ (Instr.push15 (BitVec.ofNat 256 (2 ^ 120))).wf ∧
    ¬ (Instr.push16 (BitVec.ofNat 256 (2 ^ 128))).wf := by decide

theorem test_wf_refuses_push17_to_push24 : ¬ (Instr.push17 (BitVec.ofNat 256 (2 ^ 136))).wf ∧
    ¬ (Instr.push18 (BitVec.ofNat 256 (2 ^ 144))).wf ∧
    ¬ (Instr.push19 (BitVec.ofNat 256 (2 ^ 152))).wf ∧
    ¬ (Instr.push20 (BitVec.ofNat 256 (2 ^ 160))).wf ∧
    ¬ (Instr.push21 (BitVec.ofNat 256 (2 ^ 168))).wf ∧
    ¬ (Instr.push22 (BitVec.ofNat 256 (2 ^ 176))).wf ∧
    ¬ (Instr.push23 (BitVec.ofNat 256 (2 ^ 184))).wf ∧
    ¬ (Instr.push24 (BitVec.ofNat 256 (2 ^ 192))).wf := by decide

theorem test_wf_refuses_push25_to_push31 : ¬ (Instr.push25 (BitVec.ofNat 256 (2 ^ 200))).wf ∧
    ¬ (Instr.push26 (BitVec.ofNat 256 (2 ^ 208))).wf ∧
    ¬ (Instr.push27 (BitVec.ofNat 256 (2 ^ 216))).wf ∧
    ¬ (Instr.push28 (BitVec.ofNat 256 (2 ^ 224))).wf ∧
    ¬ (Instr.push29 (BitVec.ofNat 256 (2 ^ 232))).wf ∧
    ¬ (Instr.push30 (BitVec.ofNat 256 (2 ^ 240))).wf ∧
    ¬ (Instr.push31 (BitVec.ofNat 256 (2 ^ 248))).wf := by decide

/-! Decoding, one word per constructor, written out from the encoding tables (30_encoding R46, R47, R51). -/

theorem test_decode_stop : decode [0x00] = .ok .stop [] := by decide

theorem test_decode_add : decode [0x01] = .ok .add [] := by decide

theorem test_decode_mul : decode [0x02] = .ok .mul [] := by decide

theorem test_decode_sub : decode [0x03] = .ok .sub [] := by decide

theorem test_decode_div : decode [0x04] = .ok .div [] := by decide

theorem test_decode_push1 : decode [0x60, 0x05] =
    .ok (.push1 0x05) [] := by decide

theorem test_decode_push2 : decode [0x61, 0x01, 0x02] =
    .ok (.push2 0x0102) [] := by decide

theorem test_decode_push3 : decode [0x62, 0x01, 0x02, 0x03] =
    .ok (.push3 0x010203) [] := by decide

theorem test_decode_push4 : decode [0x63, 0x01, 0x02, 0x03, 0x04] =
    .ok (.push4 0x01020304) [] := by decide

theorem test_decode_push5 : decode [0x64, 0x01, 0x02, 0x03, 0x04, 0x05] =
    .ok (.push5 0x0102030405) [] := by decide

theorem test_decode_push6 : decode [0x65, 0x01, 0x02, 0x03, 0x04, 0x05, 0x06] =
    .ok (.push6 0x010203040506) [] := by decide

theorem test_decode_push7 : decode [0x66, 0x01, 0x02, 0x03, 0x04, 0x05, 0x06, 0x07] =
    .ok (.push7 0x01020304050607) [] := by decide

theorem test_decode_push8 : decode [0x67, 0x01, 0x02, 0x03, 0x04, 0x05, 0x06, 0x07, 0x08] =
    .ok (.push8 0x0102030405060708) [] := by decide

theorem test_decode_push9 : decode [0x68, 0x01, 0x02, 0x03, 0x04, 0x05, 0x06, 0x07, 0x08, 0x09] =
    .ok (.push9 0x010203040506070809) [] := by decide

theorem test_decode_push10 : decode [0x69, 0x01, 0x02, 0x03, 0x04, 0x05, 0x06, 0x07, 0x08, 0x09, 0x0a] =
    .ok (.push10 0x0102030405060708090a) [] := by decide

theorem test_decode_push11 : decode [0x6a, 0x01, 0x02, 0x03, 0x04, 0x05, 0x06, 0x07, 0x08, 0x09, 0x0a, 0x0b] =
    .ok (.push11 0x0102030405060708090a0b) [] := by decide

theorem test_decode_push12 : decode [0x6b, 0x01, 0x02, 0x03, 0x04, 0x05, 0x06, 0x07, 0x08, 0x09, 0x0a, 0x0b, 0x0c] =
    .ok (.push12 0x0102030405060708090a0b0c) [] := by decide

theorem test_decode_push13 : decode [0x6c, 0x01, 0x02, 0x03, 0x04, 0x05, 0x06, 0x07, 0x08, 0x09, 0x0a, 0x0b, 0x0c, 0x0d] =
    .ok (.push13 0x0102030405060708090a0b0c0d) [] := by decide

theorem test_decode_push14 : decode [0x6d, 0x01, 0x02, 0x03, 0x04, 0x05, 0x06, 0x07, 0x08, 0x09, 0x0a, 0x0b, 0x0c, 0x0d, 0x0e] =
    .ok (.push14 0x0102030405060708090a0b0c0d0e) [] := by decide

theorem test_decode_push15 : decode [0x6e, 0x01, 0x02, 0x03, 0x04, 0x05, 0x06, 0x07, 0x08, 0x09, 0x0a, 0x0b, 0x0c, 0x0d, 0x0e, 0x0f] =
    .ok (.push15 0x0102030405060708090a0b0c0d0e0f) [] := by decide

theorem test_decode_push16 : decode [0x6f, 0x01, 0x02, 0x03, 0x04, 0x05, 0x06, 0x07, 0x08, 0x09, 0x0a, 0x0b, 0x0c, 0x0d, 0x0e, 0x0f, 0x10] =
    .ok (.push16 0x0102030405060708090a0b0c0d0e0f10) [] := by decide

theorem test_decode_push17 : decode [0x70, 0x01, 0x02, 0x03, 0x04, 0x05, 0x06, 0x07, 0x08, 0x09, 0x0a, 0x0b, 0x0c, 0x0d, 0x0e, 0x0f, 0x10, 0x11] =
    .ok (.push17 0x0102030405060708090a0b0c0d0e0f1011) [] := by decide

theorem test_decode_push18 : decode [0x71, 0x01, 0x02, 0x03, 0x04, 0x05, 0x06, 0x07, 0x08, 0x09, 0x0a, 0x0b, 0x0c, 0x0d, 0x0e, 0x0f, 0x10, 0x11, 0x12] =
    .ok (.push18 0x0102030405060708090a0b0c0d0e0f101112) [] := by decide

theorem test_decode_push19 : decode [0x72, 0x01, 0x02, 0x03, 0x04, 0x05, 0x06, 0x07, 0x08, 0x09, 0x0a, 0x0b, 0x0c, 0x0d, 0x0e, 0x0f, 0x10, 0x11, 0x12, 0x13] =
    .ok (.push19 0x0102030405060708090a0b0c0d0e0f10111213) [] := by decide

theorem test_decode_push20 : decode [0x73, 0x01, 0x02, 0x03, 0x04, 0x05, 0x06, 0x07, 0x08, 0x09, 0x0a, 0x0b, 0x0c, 0x0d, 0x0e, 0x0f, 0x10, 0x11, 0x12, 0x13, 0x14] =
    .ok (.push20 0x0102030405060708090a0b0c0d0e0f1011121314) [] := by decide

theorem test_decode_push21 : decode [0x74, 0x01, 0x02, 0x03, 0x04, 0x05, 0x06, 0x07, 0x08, 0x09, 0x0a, 0x0b, 0x0c, 0x0d, 0x0e, 0x0f, 0x10, 0x11, 0x12, 0x13, 0x14, 0x15] =
    .ok (.push21 0x0102030405060708090a0b0c0d0e0f101112131415) [] := by decide

theorem test_decode_push22 : decode [0x75, 0x01, 0x02, 0x03, 0x04, 0x05, 0x06, 0x07, 0x08, 0x09, 0x0a, 0x0b, 0x0c, 0x0d, 0x0e, 0x0f, 0x10, 0x11, 0x12, 0x13, 0x14, 0x15, 0x16] =
    .ok (.push22 0x0102030405060708090a0b0c0d0e0f10111213141516) [] := by decide

theorem test_decode_push23 : decode [0x76, 0x01, 0x02, 0x03, 0x04, 0x05, 0x06, 0x07, 0x08, 0x09, 0x0a, 0x0b, 0x0c, 0x0d, 0x0e, 0x0f, 0x10, 0x11, 0x12, 0x13, 0x14, 0x15, 0x16, 0x17] =
    .ok (.push23 0x0102030405060708090a0b0c0d0e0f1011121314151617) [] := by decide

theorem test_decode_push24 : decode [0x77, 0x01, 0x02, 0x03, 0x04, 0x05, 0x06, 0x07, 0x08, 0x09, 0x0a, 0x0b, 0x0c, 0x0d, 0x0e, 0x0f, 0x10, 0x11, 0x12, 0x13, 0x14, 0x15, 0x16, 0x17, 0x18] =
    .ok (.push24 0x0102030405060708090a0b0c0d0e0f101112131415161718) [] := by decide

theorem test_decode_push25 : decode [0x78, 0x01, 0x02, 0x03, 0x04, 0x05, 0x06, 0x07, 0x08, 0x09, 0x0a, 0x0b, 0x0c, 0x0d, 0x0e, 0x0f, 0x10, 0x11, 0x12, 0x13, 0x14, 0x15, 0x16, 0x17, 0x18, 0x19] =
    .ok (.push25 0x0102030405060708090a0b0c0d0e0f10111213141516171819) [] := by decide

theorem test_decode_push26 : decode [0x79, 0x01, 0x02, 0x03, 0x04, 0x05, 0x06, 0x07, 0x08, 0x09, 0x0a, 0x0b, 0x0c, 0x0d, 0x0e, 0x0f, 0x10, 0x11, 0x12, 0x13, 0x14, 0x15, 0x16, 0x17, 0x18, 0x19, 0x1a] =
    .ok (.push26 0x0102030405060708090a0b0c0d0e0f101112131415161718191a) [] := by decide

theorem test_decode_push27 : decode [0x7a, 0x01, 0x02, 0x03, 0x04, 0x05, 0x06, 0x07, 0x08, 0x09, 0x0a, 0x0b, 0x0c, 0x0d, 0x0e, 0x0f, 0x10, 0x11, 0x12, 0x13, 0x14, 0x15, 0x16, 0x17, 0x18, 0x19, 0x1a, 0x1b] =
    .ok (.push27 0x0102030405060708090a0b0c0d0e0f101112131415161718191a1b) [] := by decide

theorem test_decode_push28 : decode [0x7b, 0x01, 0x02, 0x03, 0x04, 0x05, 0x06, 0x07, 0x08, 0x09, 0x0a, 0x0b, 0x0c, 0x0d, 0x0e, 0x0f, 0x10, 0x11, 0x12, 0x13, 0x14, 0x15, 0x16, 0x17, 0x18, 0x19, 0x1a, 0x1b, 0x1c] =
    .ok (.push28 0x0102030405060708090a0b0c0d0e0f101112131415161718191a1b1c) [] := by decide

theorem test_decode_push29 : decode [0x7c, 0x01, 0x02, 0x03, 0x04, 0x05, 0x06, 0x07, 0x08, 0x09, 0x0a, 0x0b, 0x0c, 0x0d, 0x0e, 0x0f, 0x10, 0x11, 0x12, 0x13, 0x14, 0x15, 0x16, 0x17, 0x18, 0x19, 0x1a, 0x1b, 0x1c, 0x1d] =
    .ok (.push29 0x0102030405060708090a0b0c0d0e0f101112131415161718191a1b1c1d) [] := by decide

theorem test_decode_push30 : decode [0x7d, 0x01, 0x02, 0x03, 0x04, 0x05, 0x06, 0x07, 0x08, 0x09, 0x0a, 0x0b, 0x0c, 0x0d, 0x0e, 0x0f, 0x10, 0x11, 0x12, 0x13, 0x14, 0x15, 0x16, 0x17, 0x18, 0x19, 0x1a, 0x1b, 0x1c, 0x1d, 0x1e] =
    .ok (.push30 0x0102030405060708090a0b0c0d0e0f101112131415161718191a1b1c1d1e) [] := by decide

theorem test_decode_push31 : decode [0x7e, 0x01, 0x02, 0x03, 0x04, 0x05, 0x06, 0x07, 0x08, 0x09, 0x0a, 0x0b, 0x0c, 0x0d, 0x0e, 0x0f, 0x10, 0x11, 0x12, 0x13, 0x14, 0x15, 0x16, 0x17, 0x18, 0x19, 0x1a, 0x1b, 0x1c, 0x1d, 0x1e, 0x1f] =
    .ok (.push31 0x0102030405060708090a0b0c0d0e0f101112131415161718191a1b1c1d1e1f) [] := by decide

theorem test_decode_push32 : decode [0x7f, 0x01, 0x02, 0x03, 0x04, 0x05, 0x06, 0x07, 0x08, 0x09, 0x0a, 0x0b, 0x0c, 0x0d, 0x0e, 0x0f, 0x10, 0x11, 0x12, 0x13, 0x14, 0x15, 0x16, 0x17, 0x18, 0x19, 0x1a, 0x1b, 0x1c, 0x1d, 0x1e, 0x1f, 0x20] =
    .ok (.push32 0x0102030405060708090a0b0c0d0e0f101112131415161718191a1b1c1d1e1f20) [] := by decide

theorem test_decode_illegal_bounds : decode [0x05] = .refused (.illegal 0x05) ∧ decode [0x5F] = .refused (.illegal 0x5F) ∧
    decode [0x80] = .refused (.illegal 0x80) ∧ decode [0xFF] = .refused (.illegal 0xFF) := by decide

theorem test_decode_empty : decode [] = .refused .noOpcode := by decide

theorem test_encode_push2 : encode (.push2 0x0102) = [0x61, 0x01, 0x02] := by decide

/-- PUSH2 0102H numbered as the opcode table numbers it: the opcode in bits 7..0, the first immediate byte in bits 15..8. -/
theorem test_table_word_push2 : decodeTableWord 24 0x020161 = some (.push2 0x0102) := by decide

/-- A table word shorter than the instruction: the bytes above it are zero. -/
theorem test_table_word_short : decodeTableWord 8 0x61 = some (.push2 0) := by decide

/-! One step of each arithmetic instruction: the vector most likely to show a bug (95_test_vectors section 2). -/

/-- V-ADD-2 -/
theorem test_add_wraps : seen (step (atOp 0x01 [0xffffffffffffffffffffffffffffffffffffffffffffffffffffffffffffffff, 1])) = some (.running, 1, 7, [0]) := by decide

/-- V-ADD-3 -/
theorem test_add_two_maxima : seen (step (atOp 0x01 [0xffffffffffffffffffffffffffffffffffffffffffffffffffffffffffffffff, 0xffffffffffffffffffffffffffffffffffffffffffffffffffffffffffffffff])) = some (.running, 1, 7, [0xfffffffffffffffffffffffffffffffffffffffffffffffffffffffffffffffe]) := by decide

/-- V-MUL-3 -/
theorem test_mul_wraps : seen (step (atOp 0x02 [0xffffffffffffffffffffffffffffffffffffffffffffffffffffffffffffffff, 0xffffffffffffffffffffffffffffffffffffffffffffffffffffffffffffffff])) = some (.running, 1, 5, [1]) := by decide

/-- V-MUL-8 -/
theorem test_mul_low_half : seen (step (atOp 0x02 [0x0123456789abcdef0123456789abcdef0123456789abcdef0123456789abcdef, 0xfedcba9876543210fedcba9876543210fedcba9876543210fedcba9876543210])) = some (.running, 1, 5, [0x8c4150419dedb98668e87db10b145554458fab20783af1222236d88fe5618cf0]) := by decide

/-- V-SUB-1, S4 -/
theorem test_sub_operand_order : seen (step (atOp 0x03 [10, 3])) = some (.running, 1, 7, [7]) := by decide

/-- V-SUB-2 -/
theorem test_sub_wraps : seen (step (atOp 0x03 [3, 10])) = some (.running, 1, 7, [0xfffffffffffffffffffffffffffffffffffffffffffffffffffffffffffffff9]) := by decide

/-- V-DIV-1 -/
theorem test_div_truncates : seen (step (atOp 0x04 [7, 2])) = some (.running, 1, 5, [3]) := by decide

/-- V-DIV-3 -/
theorem test_div_by_zero : seen (step (atOp 0x04 [7, 0])) = some (.running, 1, 5, [0]) := by decide

/-- V-DEPTH-4: the Words below the top two are untouched. -/
theorem test_lower_stack_untouched :
    seen (step (atOp 0x04 [9, 8, 35, 5])) = some (.running, 1, 5, [9, 8, 7]) := by decide

/-- V-STOP-2 -/
theorem test_stop_without_gas : seen (step (start [0x00] 0)) = some (.success, 1, 0, []) := by decide

/-- S5 -/
theorem test_empty_code : seen (step (start [] 100)) = some (.success, 0, 100, []) := by decide

/-! One step of each PUSH: the example inside its rule (42_push R102 to R133), and the same opcode with its last byte missing. -/

theorem test_push1 : seen (step (start [0x60, 0x05] 10)) =
    some (.running, 2, 7, [0x05]) := by decide

theorem test_push1_truncated : seen (step (start [0x60] 10)) =
    some (.failure .unexpectedEndOfBytecode, 1, 7, []) := by decide

theorem test_push2 : seen (step (start [0x61, 0x01, 0x02] 10)) =
    some (.running, 3, 7, [0x0102]) := by decide

theorem test_push2_truncated : seen (step (start [0x61, 0x01] 10)) =
    some (.failure .unexpectedEndOfBytecode, 1, 7, []) := by decide

theorem test_push3 : seen (step (start [0x62, 0x01, 0x02, 0x03] 10)) =
    some (.running, 4, 7, [0x010203]) := by decide

theorem test_push3_truncated : seen (step (start [0x62, 0x01, 0x02] 10)) =
    some (.failure .unexpectedEndOfBytecode, 1, 7, []) := by decide

theorem test_push4 : seen (step (start [0x63, 0x01, 0x02, 0x03, 0x04] 10)) =
    some (.running, 5, 7, [0x01020304]) := by decide

theorem test_push4_truncated : seen (step (start [0x63, 0x01, 0x02, 0x03] 10)) =
    some (.failure .unexpectedEndOfBytecode, 1, 7, []) := by decide

theorem test_push5 : seen (step (start [0x64, 0x01, 0x02, 0x03, 0x04, 0x05] 10)) =
    some (.running, 6, 7, [0x0102030405]) := by decide

theorem test_push5_truncated : seen (step (start [0x64, 0x01, 0x02, 0x03, 0x04] 10)) =
    some (.failure .unexpectedEndOfBytecode, 1, 7, []) := by decide

theorem test_push6 : seen (step (start [0x65, 0x01, 0x02, 0x03, 0x04, 0x05, 0x06] 10)) =
    some (.running, 7, 7, [0x010203040506]) := by decide

theorem test_push6_truncated : seen (step (start [0x65, 0x01, 0x02, 0x03, 0x04, 0x05] 10)) =
    some (.failure .unexpectedEndOfBytecode, 1, 7, []) := by decide

theorem test_push7 : seen (step (start [0x66, 0x01, 0x02, 0x03, 0x04, 0x05, 0x06, 0x07] 10)) =
    some (.running, 8, 7, [0x01020304050607]) := by decide

theorem test_push7_truncated : seen (step (start [0x66, 0x01, 0x02, 0x03, 0x04, 0x05, 0x06] 10)) =
    some (.failure .unexpectedEndOfBytecode, 1, 7, []) := by decide

theorem test_push8 : seen (step (start [0x67, 0x01, 0x02, 0x03, 0x04, 0x05, 0x06, 0x07, 0x08] 10)) =
    some (.running, 9, 7, [0x0102030405060708]) := by decide

theorem test_push8_truncated : seen (step (start [0x67, 0x01, 0x02, 0x03, 0x04, 0x05, 0x06, 0x07] 10)) =
    some (.failure .unexpectedEndOfBytecode, 1, 7, []) := by decide

theorem test_push9 : seen (step (start [0x68, 0x01, 0x02, 0x03, 0x04, 0x05, 0x06, 0x07, 0x08, 0x09] 10)) =
    some (.running, 10, 7, [0x010203040506070809]) := by decide

theorem test_push9_truncated : seen (step (start [0x68, 0x01, 0x02, 0x03, 0x04, 0x05, 0x06, 0x07, 0x08] 10)) =
    some (.failure .unexpectedEndOfBytecode, 1, 7, []) := by decide

theorem test_push10 : seen (step (start [0x69, 0x01, 0x02, 0x03, 0x04, 0x05, 0x06, 0x07, 0x08, 0x09, 0x0a] 10)) =
    some (.running, 11, 7, [0x0102030405060708090a]) := by decide

theorem test_push10_truncated : seen (step (start [0x69, 0x01, 0x02, 0x03, 0x04, 0x05, 0x06, 0x07, 0x08, 0x09] 10)) =
    some (.failure .unexpectedEndOfBytecode, 1, 7, []) := by decide

theorem test_push11 : seen (step (start [0x6a, 0x01, 0x02, 0x03, 0x04, 0x05, 0x06, 0x07, 0x08, 0x09, 0x0a, 0x0b] 10)) =
    some (.running, 12, 7, [0x0102030405060708090a0b]) := by decide

theorem test_push11_truncated : seen (step (start [0x6a, 0x01, 0x02, 0x03, 0x04, 0x05, 0x06, 0x07, 0x08, 0x09, 0x0a] 10)) =
    some (.failure .unexpectedEndOfBytecode, 1, 7, []) := by decide

theorem test_push12 : seen (step (start [0x6b, 0x01, 0x02, 0x03, 0x04, 0x05, 0x06, 0x07, 0x08, 0x09, 0x0a, 0x0b, 0x0c] 10)) =
    some (.running, 13, 7, [0x0102030405060708090a0b0c]) := by decide

theorem test_push12_truncated : seen (step (start [0x6b, 0x01, 0x02, 0x03, 0x04, 0x05, 0x06, 0x07, 0x08, 0x09, 0x0a, 0x0b] 10)) =
    some (.failure .unexpectedEndOfBytecode, 1, 7, []) := by decide

theorem test_push13 : seen (step (start [0x6c, 0x01, 0x02, 0x03, 0x04, 0x05, 0x06, 0x07, 0x08, 0x09, 0x0a, 0x0b, 0x0c, 0x0d] 10)) =
    some (.running, 14, 7, [0x0102030405060708090a0b0c0d]) := by decide

theorem test_push13_truncated : seen (step (start [0x6c, 0x01, 0x02, 0x03, 0x04, 0x05, 0x06, 0x07, 0x08, 0x09, 0x0a, 0x0b, 0x0c] 10)) =
    some (.failure .unexpectedEndOfBytecode, 1, 7, []) := by decide

theorem test_push14 : seen (step (start [0x6d, 0x01, 0x02, 0x03, 0x04, 0x05, 0x06, 0x07, 0x08, 0x09, 0x0a, 0x0b, 0x0c, 0x0d, 0x0e] 10)) =
    some (.running, 15, 7, [0x0102030405060708090a0b0c0d0e]) := by decide

theorem test_push14_truncated : seen (step (start [0x6d, 0x01, 0x02, 0x03, 0x04, 0x05, 0x06, 0x07, 0x08, 0x09, 0x0a, 0x0b, 0x0c, 0x0d] 10)) =
    some (.failure .unexpectedEndOfBytecode, 1, 7, []) := by decide

theorem test_push15 : seen (step (start [0x6e, 0x01, 0x02, 0x03, 0x04, 0x05, 0x06, 0x07, 0x08, 0x09, 0x0a, 0x0b, 0x0c, 0x0d, 0x0e, 0x0f] 10)) =
    some (.running, 16, 7, [0x0102030405060708090a0b0c0d0e0f]) := by decide

theorem test_push15_truncated : seen (step (start [0x6e, 0x01, 0x02, 0x03, 0x04, 0x05, 0x06, 0x07, 0x08, 0x09, 0x0a, 0x0b, 0x0c, 0x0d, 0x0e] 10)) =
    some (.failure .unexpectedEndOfBytecode, 1, 7, []) := by decide

theorem test_push16 : seen (step (start [0x6f, 0x01, 0x02, 0x03, 0x04, 0x05, 0x06, 0x07, 0x08, 0x09, 0x0a, 0x0b, 0x0c, 0x0d, 0x0e, 0x0f, 0x10] 10)) =
    some (.running, 17, 7, [0x0102030405060708090a0b0c0d0e0f10]) := by decide

theorem test_push16_truncated : seen (step (start [0x6f, 0x01, 0x02, 0x03, 0x04, 0x05, 0x06, 0x07, 0x08, 0x09, 0x0a, 0x0b, 0x0c, 0x0d, 0x0e, 0x0f] 10)) =
    some (.failure .unexpectedEndOfBytecode, 1, 7, []) := by decide

theorem test_push17 : seen (step (start [0x70, 0x01, 0x02, 0x03, 0x04, 0x05, 0x06, 0x07, 0x08, 0x09, 0x0a, 0x0b, 0x0c, 0x0d, 0x0e, 0x0f, 0x10, 0x11] 10)) =
    some (.running, 18, 7, [0x0102030405060708090a0b0c0d0e0f1011]) := by decide

theorem test_push17_truncated : seen (step (start [0x70, 0x01, 0x02, 0x03, 0x04, 0x05, 0x06, 0x07, 0x08, 0x09, 0x0a, 0x0b, 0x0c, 0x0d, 0x0e, 0x0f, 0x10] 10)) =
    some (.failure .unexpectedEndOfBytecode, 1, 7, []) := by decide

theorem test_push18 : seen (step (start [0x71, 0x01, 0x02, 0x03, 0x04, 0x05, 0x06, 0x07, 0x08, 0x09, 0x0a, 0x0b, 0x0c, 0x0d, 0x0e, 0x0f, 0x10, 0x11, 0x12] 10)) =
    some (.running, 19, 7, [0x0102030405060708090a0b0c0d0e0f101112]) := by decide

theorem test_push18_truncated : seen (step (start [0x71, 0x01, 0x02, 0x03, 0x04, 0x05, 0x06, 0x07, 0x08, 0x09, 0x0a, 0x0b, 0x0c, 0x0d, 0x0e, 0x0f, 0x10, 0x11] 10)) =
    some (.failure .unexpectedEndOfBytecode, 1, 7, []) := by decide

theorem test_push19 : seen (step (start [0x72, 0x01, 0x02, 0x03, 0x04, 0x05, 0x06, 0x07, 0x08, 0x09, 0x0a, 0x0b, 0x0c, 0x0d, 0x0e, 0x0f, 0x10, 0x11, 0x12, 0x13] 10)) =
    some (.running, 20, 7, [0x0102030405060708090a0b0c0d0e0f10111213]) := by decide

theorem test_push19_truncated : seen (step (start [0x72, 0x01, 0x02, 0x03, 0x04, 0x05, 0x06, 0x07, 0x08, 0x09, 0x0a, 0x0b, 0x0c, 0x0d, 0x0e, 0x0f, 0x10, 0x11, 0x12] 10)) =
    some (.failure .unexpectedEndOfBytecode, 1, 7, []) := by decide

theorem test_push20 : seen (step (start [0x73, 0x01, 0x02, 0x03, 0x04, 0x05, 0x06, 0x07, 0x08, 0x09, 0x0a, 0x0b, 0x0c, 0x0d, 0x0e, 0x0f, 0x10, 0x11, 0x12, 0x13, 0x14] 10)) =
    some (.running, 21, 7, [0x0102030405060708090a0b0c0d0e0f1011121314]) := by decide

theorem test_push20_truncated : seen (step (start [0x73, 0x01, 0x02, 0x03, 0x04, 0x05, 0x06, 0x07, 0x08, 0x09, 0x0a, 0x0b, 0x0c, 0x0d, 0x0e, 0x0f, 0x10, 0x11, 0x12, 0x13] 10)) =
    some (.failure .unexpectedEndOfBytecode, 1, 7, []) := by decide

theorem test_push21 : seen (step (start [0x74, 0x01, 0x02, 0x03, 0x04, 0x05, 0x06, 0x07, 0x08, 0x09, 0x0a, 0x0b, 0x0c, 0x0d, 0x0e, 0x0f, 0x10, 0x11, 0x12, 0x13, 0x14, 0x15] 10)) =
    some (.running, 22, 7, [0x0102030405060708090a0b0c0d0e0f101112131415]) := by decide

theorem test_push21_truncated : seen (step (start [0x74, 0x01, 0x02, 0x03, 0x04, 0x05, 0x06, 0x07, 0x08, 0x09, 0x0a, 0x0b, 0x0c, 0x0d, 0x0e, 0x0f, 0x10, 0x11, 0x12, 0x13, 0x14] 10)) =
    some (.failure .unexpectedEndOfBytecode, 1, 7, []) := by decide

theorem test_push22 : seen (step (start [0x75, 0x01, 0x02, 0x03, 0x04, 0x05, 0x06, 0x07, 0x08, 0x09, 0x0a, 0x0b, 0x0c, 0x0d, 0x0e, 0x0f, 0x10, 0x11, 0x12, 0x13, 0x14, 0x15, 0x16] 10)) =
    some (.running, 23, 7, [0x0102030405060708090a0b0c0d0e0f10111213141516]) := by decide

theorem test_push22_truncated : seen (step (start [0x75, 0x01, 0x02, 0x03, 0x04, 0x05, 0x06, 0x07, 0x08, 0x09, 0x0a, 0x0b, 0x0c, 0x0d, 0x0e, 0x0f, 0x10, 0x11, 0x12, 0x13, 0x14, 0x15] 10)) =
    some (.failure .unexpectedEndOfBytecode, 1, 7, []) := by decide

theorem test_push23 : seen (step (start [0x76, 0x01, 0x02, 0x03, 0x04, 0x05, 0x06, 0x07, 0x08, 0x09, 0x0a, 0x0b, 0x0c, 0x0d, 0x0e, 0x0f, 0x10, 0x11, 0x12, 0x13, 0x14, 0x15, 0x16, 0x17] 10)) =
    some (.running, 24, 7, [0x0102030405060708090a0b0c0d0e0f1011121314151617]) := by decide

theorem test_push23_truncated : seen (step (start [0x76, 0x01, 0x02, 0x03, 0x04, 0x05, 0x06, 0x07, 0x08, 0x09, 0x0a, 0x0b, 0x0c, 0x0d, 0x0e, 0x0f, 0x10, 0x11, 0x12, 0x13, 0x14, 0x15, 0x16] 10)) =
    some (.failure .unexpectedEndOfBytecode, 1, 7, []) := by decide

theorem test_push24 : seen (step (start [0x77, 0x01, 0x02, 0x03, 0x04, 0x05, 0x06, 0x07, 0x08, 0x09, 0x0a, 0x0b, 0x0c, 0x0d, 0x0e, 0x0f, 0x10, 0x11, 0x12, 0x13, 0x14, 0x15, 0x16, 0x17, 0x18] 10)) =
    some (.running, 25, 7, [0x0102030405060708090a0b0c0d0e0f101112131415161718]) := by decide

theorem test_push24_truncated : seen (step (start [0x77, 0x01, 0x02, 0x03, 0x04, 0x05, 0x06, 0x07, 0x08, 0x09, 0x0a, 0x0b, 0x0c, 0x0d, 0x0e, 0x0f, 0x10, 0x11, 0x12, 0x13, 0x14, 0x15, 0x16, 0x17] 10)) =
    some (.failure .unexpectedEndOfBytecode, 1, 7, []) := by decide

theorem test_push25 : seen (step (start [0x78, 0x01, 0x02, 0x03, 0x04, 0x05, 0x06, 0x07, 0x08, 0x09, 0x0a, 0x0b, 0x0c, 0x0d, 0x0e, 0x0f, 0x10, 0x11, 0x12, 0x13, 0x14, 0x15, 0x16, 0x17, 0x18, 0x19] 10)) =
    some (.running, 26, 7, [0x0102030405060708090a0b0c0d0e0f10111213141516171819]) := by decide

theorem test_push25_truncated : seen (step (start [0x78, 0x01, 0x02, 0x03, 0x04, 0x05, 0x06, 0x07, 0x08, 0x09, 0x0a, 0x0b, 0x0c, 0x0d, 0x0e, 0x0f, 0x10, 0x11, 0x12, 0x13, 0x14, 0x15, 0x16, 0x17, 0x18] 10)) =
    some (.failure .unexpectedEndOfBytecode, 1, 7, []) := by decide

theorem test_push26 : seen (step (start [0x79, 0x01, 0x02, 0x03, 0x04, 0x05, 0x06, 0x07, 0x08, 0x09, 0x0a, 0x0b, 0x0c, 0x0d, 0x0e, 0x0f, 0x10, 0x11, 0x12, 0x13, 0x14, 0x15, 0x16, 0x17, 0x18, 0x19, 0x1a] 10)) =
    some (.running, 27, 7, [0x0102030405060708090a0b0c0d0e0f101112131415161718191a]) := by decide

theorem test_push26_truncated : seen (step (start [0x79, 0x01, 0x02, 0x03, 0x04, 0x05, 0x06, 0x07, 0x08, 0x09, 0x0a, 0x0b, 0x0c, 0x0d, 0x0e, 0x0f, 0x10, 0x11, 0x12, 0x13, 0x14, 0x15, 0x16, 0x17, 0x18, 0x19] 10)) =
    some (.failure .unexpectedEndOfBytecode, 1, 7, []) := by decide

theorem test_push27 : seen (step (start [0x7a, 0x01, 0x02, 0x03, 0x04, 0x05, 0x06, 0x07, 0x08, 0x09, 0x0a, 0x0b, 0x0c, 0x0d, 0x0e, 0x0f, 0x10, 0x11, 0x12, 0x13, 0x14, 0x15, 0x16, 0x17, 0x18, 0x19, 0x1a, 0x1b] 10)) =
    some (.running, 28, 7, [0x0102030405060708090a0b0c0d0e0f101112131415161718191a1b]) := by decide

theorem test_push27_truncated : seen (step (start [0x7a, 0x01, 0x02, 0x03, 0x04, 0x05, 0x06, 0x07, 0x08, 0x09, 0x0a, 0x0b, 0x0c, 0x0d, 0x0e, 0x0f, 0x10, 0x11, 0x12, 0x13, 0x14, 0x15, 0x16, 0x17, 0x18, 0x19, 0x1a] 10)) =
    some (.failure .unexpectedEndOfBytecode, 1, 7, []) := by decide

theorem test_push28 : seen (step (start [0x7b, 0x01, 0x02, 0x03, 0x04, 0x05, 0x06, 0x07, 0x08, 0x09, 0x0a, 0x0b, 0x0c, 0x0d, 0x0e, 0x0f, 0x10, 0x11, 0x12, 0x13, 0x14, 0x15, 0x16, 0x17, 0x18, 0x19, 0x1a, 0x1b, 0x1c] 10)) =
    some (.running, 29, 7, [0x0102030405060708090a0b0c0d0e0f101112131415161718191a1b1c]) := by decide

theorem test_push28_truncated : seen (step (start [0x7b, 0x01, 0x02, 0x03, 0x04, 0x05, 0x06, 0x07, 0x08, 0x09, 0x0a, 0x0b, 0x0c, 0x0d, 0x0e, 0x0f, 0x10, 0x11, 0x12, 0x13, 0x14, 0x15, 0x16, 0x17, 0x18, 0x19, 0x1a, 0x1b] 10)) =
    some (.failure .unexpectedEndOfBytecode, 1, 7, []) := by decide

theorem test_push29 : seen (step (start [0x7c, 0x01, 0x02, 0x03, 0x04, 0x05, 0x06, 0x07, 0x08, 0x09, 0x0a, 0x0b, 0x0c, 0x0d, 0x0e, 0x0f, 0x10, 0x11, 0x12, 0x13, 0x14, 0x15, 0x16, 0x17, 0x18, 0x19, 0x1a, 0x1b, 0x1c, 0x1d] 10)) =
    some (.running, 30, 7, [0x0102030405060708090a0b0c0d0e0f101112131415161718191a1b1c1d]) := by decide

theorem test_push29_truncated : seen (step (start [0x7c, 0x01, 0x02, 0x03, 0x04, 0x05, 0x06, 0x07, 0x08, 0x09, 0x0a, 0x0b, 0x0c, 0x0d, 0x0e, 0x0f, 0x10, 0x11, 0x12, 0x13, 0x14, 0x15, 0x16, 0x17, 0x18, 0x19, 0x1a, 0x1b, 0x1c] 10)) =
    some (.failure .unexpectedEndOfBytecode, 1, 7, []) := by decide

theorem test_push30 : seen (step (start [0x7d, 0x01, 0x02, 0x03, 0x04, 0x05, 0x06, 0x07, 0x08, 0x09, 0x0a, 0x0b, 0x0c, 0x0d, 0x0e, 0x0f, 0x10, 0x11, 0x12, 0x13, 0x14, 0x15, 0x16, 0x17, 0x18, 0x19, 0x1a, 0x1b, 0x1c, 0x1d, 0x1e] 10)) =
    some (.running, 31, 7, [0x0102030405060708090a0b0c0d0e0f101112131415161718191a1b1c1d1e]) := by decide

theorem test_push30_truncated : seen (step (start [0x7d, 0x01, 0x02, 0x03, 0x04, 0x05, 0x06, 0x07, 0x08, 0x09, 0x0a, 0x0b, 0x0c, 0x0d, 0x0e, 0x0f, 0x10, 0x11, 0x12, 0x13, 0x14, 0x15, 0x16, 0x17, 0x18, 0x19, 0x1a, 0x1b, 0x1c, 0x1d] 10)) =
    some (.failure .unexpectedEndOfBytecode, 1, 7, []) := by decide

theorem test_push31 : seen (step (start [0x7e, 0x01, 0x02, 0x03, 0x04, 0x05, 0x06, 0x07, 0x08, 0x09, 0x0a, 0x0b, 0x0c, 0x0d, 0x0e, 0x0f, 0x10, 0x11, 0x12, 0x13, 0x14, 0x15, 0x16, 0x17, 0x18, 0x19, 0x1a, 0x1b, 0x1c, 0x1d, 0x1e, 0x1f] 10)) =
    some (.running, 32, 7, [0x0102030405060708090a0b0c0d0e0f101112131415161718191a1b1c1d1e1f]) := by decide

theorem test_push31_truncated : seen (step (start [0x7e, 0x01, 0x02, 0x03, 0x04, 0x05, 0x06, 0x07, 0x08, 0x09, 0x0a, 0x0b, 0x0c, 0x0d, 0x0e, 0x0f, 0x10, 0x11, 0x12, 0x13, 0x14, 0x15, 0x16, 0x17, 0x18, 0x19, 0x1a, 0x1b, 0x1c, 0x1d, 0x1e] 10)) =
    some (.failure .unexpectedEndOfBytecode, 1, 7, []) := by decide

theorem test_push32 : seen (step (start [0x7f, 0x01, 0x02, 0x03, 0x04, 0x05, 0x06, 0x07, 0x08, 0x09, 0x0a, 0x0b, 0x0c, 0x0d, 0x0e, 0x0f, 0x10, 0x11, 0x12, 0x13, 0x14, 0x15, 0x16, 0x17, 0x18, 0x19, 0x1a, 0x1b, 0x1c, 0x1d, 0x1e, 0x1f, 0x20] 10)) =
    some (.running, 33, 7, [0x0102030405060708090a0b0c0d0e0f101112131415161718191a1b1c1d1e1f20]) := by decide

theorem test_push32_truncated : seen (step (start [0x7f, 0x01, 0x02, 0x03, 0x04, 0x05, 0x06, 0x07, 0x08, 0x09, 0x0a, 0x0b, 0x0c, 0x0d, 0x0e, 0x0f, 0x10, 0x11, 0x12, 0x13, 0x14, 0x15, 0x16, 0x17, 0x18, 0x19, 0x1a, 0x1b, 0x1c, 0x1d, 0x1e, 0x1f] 10)) =
    some (.failure .unexpectedEndOfBytecode, 1, 7, []) := by decide

/-! Failures, their order and their state (95_test_vectors, V-ERR). -/

/-- S6 -/
theorem test_out_of_gas_keeps_stack :
    seen (step { start [0x01] 2 with stack := [4, 6] }) = some (.failure .outOfGas, 1, 2, [4, 6]) := by decide

/-- V-ERR-3: OutOfGas before StackUnderflow. -/
theorem test_out_of_gas_before_underflow : seen (step (start [0x01] 2)) = some (.failure .outOfGas, 1, 2, []) := by decide

/-- S7 -/
theorem test_underflow : seen (step (start [0x01] 10)) = some (.failure .stackUnderflow, 1, 7, []) := by decide

/-- V-ERR-5 -/
theorem test_illegal_without_gas : seen (step (start [0x50] 0)) = some (.failure .invalidOpcode, 1, 0, []) := by decide

/-- V-ERR-10: OutOfGas before UnexpectedEndOfBytecode. -/
theorem test_out_of_gas_before_truncation : seen (step (start [0x60] 2)) = some (.failure .outOfGas, 1, 2, []) := by decide

/-- The third step of P7: a push onto a stack of depth 2 that is full. -/
theorem test_stack_overflow :
    seen (step { start [0x60, 0x03] 94 with cfg := { Config.default with stackDepth := 2 }, stack := [1, 2] }) =
      some (.failure .stackOverflow, 1, 91, [1, 2]) := by decide

/-- The third step of V-ERR-14: UnexpectedEndOfBytecode before StackOverflow. -/
theorem test_truncation_before_overflow :
    seen (step { start [0x60] 94 with cfg := { Config.default with stackDepth := 2 }, stack := [1, 2] }) =
      some (.failure .unexpectedEndOfBytecode, 1, 91, [1, 2]) := by decide

/-- The host's placing of an instruction at State.reset: it is what the next step runs. -/
theorem test_placed_word_runs :
    seen (step (State.reset.withFetchWord 24 0x020161)) = some (.running, 3, 2 ^ 64 - 4, [0x0102]) := by decide

/-! Witnesses: for every statement of Certificates/Slice0/Obligations.lean that has hypotheses, a state and operands that meet
all of them together, clause by clause where it has several, at a value on the clause's bound where there is one. -/

/-- PUSH1 05H at pc 0 with gas 10 and an empty stack, about to run. -/
def w : State := start [0x60, 0x05] 10

/-- The state after `w`'s step (42_push R102, example). -/
def w2 : State := { w with pc := 2, gas := 7, stack := [5] }

/-- A host input at the bounds of 70_reset R184: no code, gas 2^64 - 1. -/
def input : HostInput := { cfg := Config.default, bytecode := [], initialGas := 2 ^ 64 - 1 }

/-- A machine with two operands, code `01`, gas as given. -/
def wAdd (gas : Nat) (stack : List Word) : State := { start [0x01] gas with stack := stack }

theorem witness_ResetMeetsTheInvariant : input.admissible ∧
    HostInput.admissible { cfg := Config.default, bytecode := [0x00], initialGas := 0 } := by decide

theorem witness_EveryStepKeepsTheInvariant : w.wf ∧ step w = .next w2 := ⟨by decide, rfl⟩

theorem witness_PcStaysWithinTheCode : w.pc ≤ w.codeLen ∧ step w = .next w2 ∧
    w2.pc ≤ w2.codeLen ∧ step w2 = .next { w2 with status := .success } := ⟨by decide, rfl, by decide, rfl⟩

theorem witness_EveryRunEnds : (w.pc ≤ w.codeLen) ∧ (w.status = .running ∧ step w = .next w2 ∧ w2.status = .running) ∧
    (w2.status = .running ∧ w2.pc = w2.codeLen ∧ step w2 = .next { w2 with status := .success }) :=
  ⟨by decide, ⟨rfl, rfl, rfl⟩, ⟨rfl, rfl, rfl⟩⟩

theorem witness_StepRunsDecodedInstruction : w.status = .running ∧ w.pc < w.codeLen ∧
    decode (decodeBytes w w.pc maxLength) = .ok (.push1 5) (List.replicate 31 0x00) := ⟨rfl, by decide, by decide⟩

theorem witness_StepRunsEncodedInstruction : w.status = .running ∧ (Instr.push1 5).wf ∧
    ∀ k, k < (Instr.push1 5).length → codeByte w (w.pc + k) = (encode (.push1 5))[k]? := by
  refine ⟨rfl, by decide, fun k hk => ?_⟩
  have hk2 : k = 0 ∨ k = 1 := by simp [Instr.length, Instr.immBytes] at hk; omega
  rcases hk2 with rfl | rfl <;> decide

theorem witness_DecodeInvertsEncode : (Instr.push1 255).wf ∧ Instr.add.wf := by decide

theorem witness_EncodeInvertsDecode : decode [0x61, 0xff, 0xff, 0x00] = .ok (.push2 65535) [0x00] := by decide

theorem witness_ImmediateIsBigEndian : ([] : List Byte).length ≤ 32 ∧ (List.replicate 32 (0xff : Byte)).length ≤ 32 := by decide

theorem witness_TableWordRunsNext : decodeTableWord 16 0x0560 = some (.push1 5) := by decide

theorem witness_EndOfCodeHaltsSuccessfully : w2.status = .running ∧ w2.pc ≥ w2.codeLen := by decide

theorem witness_IllegalOpcodeFails : (start [0x5F] 0).status = .running ∧
    codeByte (start [0x5F] 0) (start [0x5F] 0).pc = some 0x5F ∧
    ((0x05 ≤ (0x5F : Byte).toNat ∧ (0x5F : Byte).toNat ≤ 0x5F) ∨ 0x80 ≤ (0x5F : Byte).toNat) ∧
    (start [0x80] 0).status = .running ∧ codeByte (start [0x80] 0) (start [0x80] 0).pc = some 0x80 ∧
    ((0x05 ≤ (0x80 : Byte).toNat ∧ (0x80 : Byte).toNat ≤ 0x5F) ∨ 0x80 ≤ (0x80 : Byte).toNat) := by decide

theorem witness_HaltedStatesAreTerminal : (haltSuccess w).status ≠ .running ∧ (raise .outOfGas w).status ≠ .running := by decide

theorem witness_ConsumeChargesOrFails : w.gas < 11 ∧ 10 ≤ w.gas := by decide

/-- A full stack, and one with room for exactly one more. -/
theorem witness_PushAppendsOrOverflows :
    (State.sp { w with cfg := { Config.default with stackDepth := 0 } } = 0) ∧
    (State.sp w2 < State.sp w2 + 1 ∧ State.sp { w2 with cfg := { Config.default with stackDepth := 2 } } < 2) := by decide

theorem witness_PopTwoTakesTheTopTwo : (wAdd 10 [9]).sp < 2 ∧ 2 ≤ (wAdd 10 [9, 8]).sp := by decide

theorem witness_AdditionLaw : (BitVec.ofNat 256 (2 ^ 256 - 2) : Word).toNat + (1 : Word).toNat < 2 ^ 256 ∧
    2 ^ 256 ≤ (BitVec.ofNat 256 (2 ^ 256 - 1) : Word).toNat + (1 : Word).toNat := by decide

theorem witness_SubtractionLaw : (3 : Word).toNat ≤ (3 : Word).toNat ∧ (2 : Word).toNat < (3 : Word).toNat := by decide

theorem witness_DivisionLaw : (0 : Word) = 0 ∧ (1 : Word) ≠ 0 ∧ (6 : Word).toNat < (7 : Word).toNat := by decide

/-- The hypotheses of every clause of `ArithmeticRule`, for each of the four opcode bytes and its cost. -/
theorem witness_ArithmeticRules :
    (∀ op ∈ [0x01, 0x02, 0x03, 0x04], (atOp op [7, 5]).status = .running ∧ codeByte (atOp op [7, 5]) (atOp op [7, 5]).pc = some op) ∧
    ((wAdd 2 []).gas < 3 ∧ (wAdd 4 []).gas < 5) ∧
    (3 ≤ (wAdd 3 [9]).gas ∧ 5 ≤ (wAdd 5 [9]).gas ∧ (wAdd 5 [9]).stack.length < 2) ∧
    (3 ≤ (wAdd 3 [9, 7, 5]).gas ∧ 5 ≤ (wAdd 5 [9, 7, 5]).gas ∧ (wAdd 5 [9, 7, 5]).stack = [9] ++ [7, 5] ∧
      (wAdd 5 [9, 7, 5]).stack.length ≤ (wAdd 5 [9, 7, 5]).cfg.stackDepth) := by decide

theorem witness_StopMeetsItsRule : (start [0x00] 0).status = .running ∧
    codeByte (start [0x00] 0) (start [0x00] 0).pc = some 0x00 := by decide

/-- A machine with the opcode of PUSH(n) at pc 0 and exactly n bytes after it, gas 3, with room for one Word. -/
def wPush (n : Nat) : State :=
  { start (BitVec.ofNat 8 (0x5F + n) :: List.replicate n 0xff) 3 with cfg := { Config.default with stackDepth := 1 } }

/-- The hypotheses of every clause of `PushRule` and of `PushFamilyStep`, for the shortest and the longest PUSH and one between
(the others differ only in n). -/
theorem witness_PushRules : ∀ n ∈ [1, 2, 12, 13, 22, 23, 32],
    (1 ≤ n ∧ n ≤ 32) ∧ (List.replicate n (0xff : Byte)).length = n ∧
    ((wPush n).status = .running ∧ codeByte (wPush n) (wPush n).pc = some (BitVec.ofNat 8 (0x5F + n)) ∧
      (wPush n).pc + 1 + n ≤ (wPush n).codeLen) ∧
    (({ wPush n with gas := 2 } : State).gas < push1Cost (wPush n).cfg ∧
      ({ wPush n with gas := 2 } : State).gas < pushNCost (wPush n).cfg) ∧
    (push1Cost (wPush n).cfg ≤ (wPush n).gas ∧ pushNCost (wPush n).cfg ≤ (wPush n).gas) ∧
    ({ wPush n with codeLen := n } : State).codeLen - ((wPush n).pc + 1) < n ∧
    ({ wPush n with stack := [1] } : State).stack.length = (wPush n).cfg.stackDepth ∧
    (wPush n).stack.length < (wPush n).cfg.stackDepth := by decide

theorem witness_StaticCostTable : 2 ≤ (Instr.push2 0).immBytes ∧ 2 ≤ (Instr.push32 0).immBytes ∧
    (Instr.push1 3).opcode = (Instr.push1 4).opcode := by decide

/-- Each of the five kinds, from a Running state with the stack within its depth. -/
theorem witness_FailuresArePrecise :
    ((wAdd 2 [7, 5]).status = .running ∧ (wAdd 2 [7, 5]).stack.length ≤ (wAdd 2 [7, 5]).cfg.stackDepth ∧
      step (wAdd 2 [7, 5]) = .next { wAdd 2 [7, 5] with pc := 1, status := .failure .outOfGas }) ∧
    (step (wAdd 3 [9]) = .next { wAdd 3 [9] with pc := 1, gas := 0, status := .failure .stackUnderflow }) ∧
    (step (start [0x50] 0) = .next { start [0x50] 0 with pc := 1, status := .failure .invalidOpcode }) ∧
    (step (start [0x60] 3) = .next { start [0x60] 3 with pc := 1, gas := 0, status := .failure .unexpectedEndOfBytecode }) ∧
    (step { wPush 1 with stack := [1] } =
      .next { wPush 1 with stack := [1], pc := 1, gas := 0, status := .failure .stackOverflow }) :=
  ⟨⟨rfl, by decide, rfl⟩, rfl, rfl, rfl, rfl⟩

theorem witness_FailingOpcodeIsJustBehindPc :
    ((start [0x50] 0).status = .running ∧
      step (start [0x50] 0) = .next { start [0x50] 0 with pc := 1, status := .failure .invalidOpcode }) ∧
    ((∃ k, State.status { start [0x50] 0 with pc := 1, status := .failure .invalidOpcode } = .failure k) ∧
      1 ≤ State.pc { start [0x50] 0 with pc := 1, status := .failure .invalidOpcode } ∧
      (codeByte { start [0x50] 0 with pc := 1, status := .failure .invalidOpcode } 0).isSome) :=
  ⟨⟨rfl, rfl⟩, ⟨_, rfl⟩, by decide, by decide⟩

theorem witness_WhoRaisesWhichFailure :
    ((wAdd 2 []).status = .running ∧
      exec .add (wAdd 2 []) = .next { wAdd 2 [] with pc := 1, status := .failure .outOfGas }) ∧
    exec .add (wAdd 3 []) = .next { wAdd 3 [] with pc := 1, gas := 0, status := .failure .stackUnderflow } ∧
    exec (.push1 0) (start [0x60] 3) =
      .next { start [0x60] 3 with pc := 1, gas := 0, status := .failure .unexpectedEndOfBytecode } ∧
    (exec (.push1 5) { wPush 1 with stack := [1] } =
        .next { wPush 1 with stack := [1], pc := 1, gas := 0, status := .failure .stackOverflow } ∧
      State.sp { wPush 1 with stack := [1] } ≤ (wPush 1).cfg.stackDepth) :=
  ⟨⟨rfl, rfl⟩, rfl, rfl, rfl, by decide⟩

theorem witness_SuccessIsReachedInTwoWays :
    ((start [0x00] 0).status = .running ∧ codeByte (start [0x00] 0) 0 = some 0x00 ∧
      step (start [0x00] 0) = .next { start [0x00] 0 with pc := 1, status := .success }) ∧
    (w2.status = .running ∧ w2.codeLen ≤ w2.pc ∧ step w2 = .next { w2 with status := .success }) ∧
    input.bytecode = [] :=
  ⟨⟨rfl, rfl, rfl⟩, ⟨rfl, by decide, rfl⟩, rfl⟩

theorem witness_HaltFlagIsStopsAlone :
    (w.status = .running ∧ exec (.push1 5) w = .next w2 ∧ ∀ k, w2.status ≠ .failure k) ∧
    (exec .stop w = .next { w with pc := 1, status := .success } ∧
      ∀ k, State.status { w with pc := 1, status := .success } ≠ .failure k) :=
  ⟨⟨rfl, rfl, fun _ h => nomatch h⟩, rfl, fun _ h => nomatch h⟩

theorem witness_NoStepWritesTheCodeSpace : step w = .next w2 ∧ exec (.push1 5) w = .next w2 := ⟨rfl, rfl⟩

theorem witness_ArithmeticFrame :
    ((wAdd 3 [9, 7, 5]).stack.length ≤ (wAdd 3 [9, 7, 5]).cfg.stackDepth ∧
      exec .add (wAdd 3 [9, 7, 5]) = .next { wAdd 3 [9, 12] with pc := 1, gas := 0 } ∧
      0 < (wAdd 3 [9, 7, 5]).sp - 2 ∧
      ∀ k, State.status { wAdd 3 [9, 12] with pc := 1, gas := 0 } ≠ .failure k) ∧
    ((wAdd 3 [9]).stack.length ≤ (wAdd 3 [9]).cfg.stackDepth ∧
      exec .add (wAdd 3 [9]) = .next { wAdd 3 [9] with pc := 1, gas := 0, status := .failure .stackUnderflow }) :=
  ⟨⟨by decide, rfl, by decide, fun _ h => nomatch h⟩, by decide, rfl⟩

theorem witness_PushFrame : 1 ≤ (Instr.push1 5).immBytes ∧ exec (.push1 5) w = .next w2 ∧ 0 < w2.sp := ⟨by decide, rfl, by decide⟩

theorem witness_StopFrame : exec .stop w = .next { w with pc := 1, status := .success } := rfl

theorem witness_GasOnlyPaysStaticCosts : step w = .next w2 ∧ w.status = .running ∧ w2.status = .running := ⟨rfl, rfl, rfl⟩

theorem witness_PcMovesForwardByInstructionLength :
    exec (.push1 5) w = .next w2 ∧ w.status = .running ∧ w2.status = .running := ⟨rfl, rfl, rfl⟩

/-- `w2` meets the bound with equality; its code is as long as the shortest depth allows. -/
theorem witness_ShortCodeNeverOverflows :
    2 * w.sp ≤ w.pc ∧ step w = .next w2 ∧ 2 * w2.sp = w2.pc ∧ w.codeLen ≤ 2 * w.cfg.stackDepth ∧
    w.status ≠ .failure .stackOverflow ∧ input.bytecode.length ≤ 2 * input.cfg.stackDepth ∧
    Host.Core.run core 1 (resetWith input) = .next { resetWith input with status := .success } :=
  ⟨by decide, rfl, rfl, by decide, by decide, by decide, rfl⟩

theorem witness_GasDoesNotSteerASufficientlyFundedStep : 5 ≤ w.gas ∧ w.cfg.gPushN ≤ w.gas ∧ 5 ≤ 5 ∧ w.cfg.gPushN ≤ 5 := by decide

/-- The other code space differs after the instruction: 60 05 against 60 05 00 with a byte listed past `code_len`. -/
theorem witness_StepReadsOnlyItsOwnBytes : w.status = .running ∧ fetch w = .instr (.push1 5) ∧
    (∀ k, k < (Instr.push1 5).length → w.pc + k < w.codeLen →
      Memory.read (Memory.write w.code 7 0xff) (w.pc + k) = Memory.read w.code (w.pc + k)) := by
  refine ⟨rfl, by decide, fun k hk _ => ?_⟩
  have h7 : w.pc + k ≠ 7 := by
    have hw : w.pc = 0 := rfl
    simp [Instr.length, Instr.immBytes] at hk; omega
  exact read_write_other _ _ h7

theorem witness_TruncatedPushIgnoresItsImmediate : (Instr.push2 1).opcode = (Instr.push2 2).opcode ∧
    w.codeLen - (w.pc + 1) < (Instr.push2 1).immBytes := by decide

/-- Gas, code and room exactly enough. -/
def wChain : State :=
  { cfg := { Config.default with stackDepth := 2 }, code := [], codeLen := 66, pc := 0, gas := 11, stack := [], status := .running }

theorem witness_SubtractsInPushOrder : 2 * wChain.cfg.gPushN + 5 ≤ wChain.gas ∧ wChain.pc + 66 ≤ wChain.codeLen ∧
    wChain.sp + 2 ≤ wChain.cfg.stackDepth := by decide

theorem witness_StatusWordEncoding : (haltSuccess w).status.stateField ≠ 0 ∧ step (haltSuccess w) = .next (haltSuccess w) ∧
    Status.stateField .running ≠ 2 := ⟨by decide, rfl, by decide⟩

theorem witness_HostReadsOnlyAHaltedMachine : w.status = .running ∧ (haltSuccess w2).status ≠ .running ∧
    0 < (haltSuccess w2).sp ∧ (haltSuccess w2).sp ≤ 1 := by decide

theorem witness_OpcodeMapIsTotalAndExact : 1 ≤ 1 ∧ 32 ≤ 32 ∧ 0xFF < 256 := by decide

end Sys2Proof.Tests
end

/-! PROOF. With `code_len` at most `2 * STACK_DEPTH` the stack cannot overflow (00_scope R7, 60_exceptions R155): each PUSH
passes at least two bytes for the one Word it adds, so `2 * sp ≤ pc` at all times, and a full stack leaves no code to run. -/

namespace Sys2Proof.Machine

/-- What holds of a state and is kept by every step holds after any number of steps. -/
theorem run_keeps {M : Host.Core} {P : M.State → Prop} (hstep : ∀ s t, P s → M.step s = .next t → P t) {k : Nat}
    {s t : M.State} (hs : P s) (h : M.run k s = .next t) : P t := by
  induction k generalizing s with
  | zero =>
    cases h
    exact hs
  | succ k ih =>
    unfold Host.Core.run at h
    split at h
    · next s' hs' => exact ih (hstep s s' hs hs') h
    · cases h
    · cases h

/-- No instruction writes the configuration, `code_len` or the code space (20_memory R32, 10_state R15). -/
theorem exec_sameCode {i : Instr} {s t : State} (h : exec i s = .next t) : sameCode s t := by
  rcases exec_cases h with ⟨-, rfl⟩ | ⟨-, -, rfl⟩ |
    ⟨-, -, ⟨-, rfl⟩ | ⟨_, _, _, -, -, rfl⟩ | ⟨_, _, _, -, -, rfl⟩⟩ | ⟨-, -, ⟨-, rfl⟩ | ⟨-, -, rfl⟩ | ⟨-, -, rfl⟩⟩
  all_goals exact ⟨rfl, rfl, rfl, fun _ => rfl⟩

theorem step_sameCode {s t : State} (h : step s = .next t) : sameCode s t := by
  rcases step_cases h with ⟨-, rfl⟩ | ⟨-, -, rfl⟩ | ⟨-, -, -, rfl⟩ | ⟨i, -, -, -, hexec⟩
  · exact ⟨rfl, rfl, rfl, fun _ => rfl⟩
  · exact ⟨rfl, rfl, rfl, fun _ => rfl⟩
  · exact ⟨rfl, rfl, rfl, fun _ => rfl⟩
  · exact exec_sameCode hexec

/-- An instruction adds at most one Word, and one that does passes its opcode and at least one immediate byte. -/
theorem exec_keeps_two_sp_le_pc {i : Instr} {s t : State} (hs : 2 * s.sp ≤ s.pc) (h : exec i s = .next t) :
    2 * t.sp ≤ t.pc := by
  simp only [sp_eq] at hs ⊢
  rcases exec_cases h with ⟨-, rfl⟩ | ⟨-, -, rfl⟩ | ⟨-, -, harith⟩ | ⟨himm, -, hpush⟩
  case inl | inr.inl => exact Nat.le_succ_of_le hs
  · rcases harith with ⟨-, rfl⟩ | ⟨below, n2, n1, hst, -, rfl⟩ | ⟨below, n2, n1, hst, -, rfl⟩
    · exact Nat.le_succ_of_le hs
    · simp [hst] at hs ⊢; omega
    · simp [hst] at hs ⊢; omega
  · rcases hpush with ⟨-, rfl⟩ | ⟨-, -, rfl⟩ | ⟨-, -, rfl⟩
    · exact Nat.le_succ_of_le hs
    · exact Nat.le_succ_of_le hs
    · simp; omega

theorem step_keeps_two_sp_le_pc {s t : State} (hs : 2 * s.sp ≤ s.pc) (h : step s = .next t) : 2 * t.sp ≤ t.pc := by
  rcases step_cases h with ⟨-, rfl⟩ | ⟨-, -, rfl⟩ | ⟨-, -, -, rfl⟩ | ⟨i, -, -, -, hexec⟩
  · exact hs
  · exact hs
  · exact Nat.le_succ_of_le hs
  · exact exec_keeps_two_sp_le_pc hs hexec

/-- An instruction that overflows the stack finds `STACK_DEPTH` live Words or more. -/
theorem stackDepth_le_sp_of_exec_overflows {i : Instr} {s t : State} (hr : s.status = .running) (h : exec i s = .next t)
    (ht : t.status = .failure .stackOverflow) : s.cfg.stackDepth ≤ s.sp := by
  rw [sp_eq]
  rcases exec_cases h with ⟨-, rfl⟩ | ⟨-, -, rfl⟩ | ⟨-, -, harith⟩ | ⟨-, -, hpush⟩
  case inl | inr.inl => cases ht
  · rcases harith with ⟨-, rfl⟩ | ⟨below, n2, n1, hst, hfull, rfl⟩ | ⟨below, n2, n1, -, -, rfl⟩
    · cases ht
    · simp [hst, hfull]
    · simp [hr] at ht
  · rcases hpush with ⟨-, rfl⟩ | ⟨-, hfull, rfl⟩ | ⟨-, -, rfl⟩
    · cases ht
    · exact hfull.ge
    · simp [hr] at ht

/-- A step can overflow the stack only from an instruction below `code_len`, and there `2 * STACK_DEPTH ≤ 2 * sp ≤ pc`. -/
theorem step_not_overflow {s t : State} (hs : 2 * s.sp ≤ s.pc) (hlen : s.codeLen ≤ 2 * s.cfg.stackDepth)
    (hst : s.status ≠ .failure .stackOverflow) (h : step s = .next t) : t.status ≠ .failure .stackOverflow := by
  rcases step_cases h with ⟨-, rfl⟩ | ⟨-, -, rfl⟩ | ⟨-, -, -, rfl⟩ | ⟨i, hr, hpc, -, hexec⟩
  · exact hst
  · simp
  · simp
  · intro ht
    have hfull := stackDepth_le_sp_of_exec_overflows hr hexec ht
    omega

/-- The invariant of a run from reset with a short bytecode. -/
def ShortCodeInvariant (s : State) : Prop :=
  2 * s.sp ≤ s.pc ∧ s.codeLen ≤ 2 * s.cfg.stackDepth ∧ s.status ≠ .failure .stackOverflow

theorem shortCodeInvariant_resetWith {h : HostInput} (hlen : h.bytecode.length ≤ 2 * h.cfg.stackDepth) :
    ShortCodeInvariant (resetWith h) :=
  ⟨Nat.zero_le 0, hlen, by simp⟩

theorem step_keeps_shortCodeInvariant {s t : State} (hs : ShortCodeInvariant s) (h : step s = .next t) :
    ShortCodeInvariant t := by
  obtain ⟨hsp, hlen, hst⟩ := hs
  obtain ⟨hcfg, hcodeLen, -, -⟩ := step_sameCode h
  exact ⟨step_keeps_two_sp_le_pc hsp h, by rwa [hcfg, hcodeLen], step_not_overflow hsp hlen hst h⟩

/-- Settles O50, from the invariant `2 * sp ≤ pc` and the bounded `code_len`, which every step keeps. -/
theorem shortCodeNeverOverflows : Obligations.ShortCodeNeverOverflows := by
  refine ⟨fun _ => Nat.zero_le 0, fun _ _ => step_keeps_two_sp_le_pc, fun _ _ => step_not_overflow, ?_⟩
  intro h k t hlen hrun
  obtain ⟨-, -, hst⟩ := run_keeps (M := core) (P := ShortCodeInvariant)
    (fun _ _ => step_keeps_shortCodeInvariant) (shortCodeInvariant_resetWith hlen) hrun
  exact hst

end Sys2Proof.Machine


/-! PROOF. The state the host sets and reads (10_state): reset, the status word, and the readout of a halted machine. -/

namespace Sys2Proof.Machine

/-- After reset the code space reads as the bytecode: its bytes below its length, no byte from there on (20_memory R31). -/
theorem codeByte_resetWith (h : HostInput) (a : Nat) : codeByte (resetWith h) a = h.bytecode[a]? := by
  rcases Nat.lt_or_ge a h.bytecode.length with ha | ha
  · have hread : Memory.read (Memory.place [] 0 h.bytecode) a = h.bytecode[a] := by
      simp [read_place, ha]
    simp [codeByte, hread, ha]
  · have hout : ¬ a < h.bytecode.length := Nat.not_lt.mpr ha
    simp [codeByte, hout]

/-- Settles O1: the registers are `resetWith`'s own fields, and the placed bytes read back as the bytecode. -/
theorem resetTakesTheHostsInputs : Obligations.ResetTakesTheHostsInputs := fun h _ =>
  ⟨rfl, rfl, rfl, rfl, rfl, rfl, codeByte_resetWith h, rfl⟩

/-- The bounds of `pc` and `sp` are at 0, those of `code_len` and `gas` are the host's duty (70_reset R184), and only the
bytecode's own addresses are listed. -/
theorem resetWith_wf {h : HostInput} (hadm : h.admissible) : (resetWith h).wf := by
  obtain ⟨hlen, hgas⟩ := hadm
  have hcells : ∀ c ∈ Memory.place [] 0 h.bytecode, c.1 < h.bytecode.length := by
    intro c hc
    rcases mem_place h.bytecode [] 0 hc with hnil | ⟨-, hlt⟩
    · exact absurd hnil List.not_mem_nil
    · omega
  exact ⟨Nat.zero_le _, hlen, hgas, Nat.zero_le _, place_wf reset_code_wf 0 h.bytecode, hcells⟩

/-- `State.reset` is the reset of the default machine with no bytecode and the largest budget (log entries 2 and 3). -/
theorem reset_eq_resetWith :
    State.reset = resetWith { cfg := Config.default, bytecode := [], initialGas := 2 ^ 64 - 1 } := rfl

/-- Settles O2: `State.reset` is one admissible input's reset, and every admissible input's reset meets the invariant. -/
theorem resetMeetsTheInvariant : Obligations.ResetMeetsTheInvariant := by
  refine ⟨?_, fun _ => resetWith_wf⟩
  rw [reset_eq_resetWith]
  exact resetWith_wf (by decide)

/-! The two fields of the status word (10_state R14). -/

theorem stateField_eq_zero_iff {st : Status} : st.stateField = 0 ↔ st = .running := by
  cases st <;> simp [Status.stateField]

theorem stateField_ne_three (st : Status) : st.stateField ≠ 3 := by
  cases st <;> simp [Status.stateField]

/-- Only a failed machine has a failure kind. -/
theorem kindField_eq_zero {st : Status} (h : st.stateField ≠ 2) : st.kindField = 0 := by
  cases st with
  | running => rfl
  | success => rfl
  | failure k => exact absurd rfl h

/-- The kinds are numbered 0 to 5: the codes 6 and 7 are unused. -/
theorem kindField_le_five (st : Status) : st.kindField ≤ 5 := by
  cases st with
  | running => decide
  | success => decide
  | failure k => cases k <;> decide

theorem word_low_bits (st : Status) : st.word.extractLsb' 0 2 = st.stateField :=
  BitVec.extractLsb'_append_eq_right

theorem word_high_bits (st : Status) : st.word.extractLsb' 2 3 = st.kindField :=
  BitVec.extractLsb'_append_eq_left

/-- A step of a halted machine changes nothing (43_control R142). -/
theorem step_of_ended {s t : State} (hs : s.ended) (h : step s = .next t) : t = s := by
  rcases step_cases h with ⟨-, ht⟩ | ⟨hr, -⟩ | ⟨hr, -⟩ | ⟨_, hr, -⟩
  · exact ht
  all_goals exact absurd hr hs

/-- Settles O55: the word is its two fields side by side, and a `state` field other than 0 is a halted machine. -/
theorem statusWordEncoding : Obligations.StatusWordEncoding := by
  refine ⟨rfl, rfl, rfl, rfl, rfl, rfl, rfl, fun st => ?_, fun s t hs => ?_⟩
  · have hkind := kindField_le_five st
    exact ⟨word_low_bits st, word_high_bits st, stateField_ne_three st, kindField_eq_zero,
      fun h6 => absurd (h6 ▸ hkind) (by decide), fun h7 => absurd (h7 ▸ hkind) (by decide)⟩
  · exact step_of_ended (mt stateField_eq_zero_iff.mpr hs)

/-! What the host reads (10_state R22 to R24). -/

/-- The output `halted` is 1 exactly at the end of a run. -/
theorem halted_iff {s : State} : halted s = true ↔ s.ended :=
  decide_eq_true_iff.trans (not_congr stateField_eq_zero_iff)

/-- Settles O56: `halted` gates both readout ports, and the live Words are the list's own entries. -/
theorem hostReadsOnlyAHaltedMachine : Obligations.HostReadsOnlyAHaltedMachine := by
  refine fun s => ⟨fun hrun => ?_, fun hend => ?_⟩
  · have hh : ¬ halted s = true := fun hh => halted_iff.mp hh hrun
    exact ⟨if_neg hh, fun _ => if_neg hh⟩
  · have hh : halted s = true := halted_iff.mpr hend
    have hport : ∀ i, stackRdata s i = s.stack[i]? := fun _ => if_pos hh
    exact ⟨if_pos hh, fun i _ => hport i, fun i hi => (hport i).trans (List.getElem?_eq_none hi)⟩

end Sys2Proof.Machine


/-! PROOF. The code space (20_memory): every step answers, no step writes a byte of code, and a step reads the bytes of its own
instruction only. -/

namespace Sys2Proof.Machine

open Host (Outcome)

/-- From `s`, the operation answers a next state, and on any other code space the same one but for the code space. -/
def AnswersOnAnyCode (op : State → Outcome State Fault Refusal) (s : State) : Prop :=
  ∃ t, op s = .next t ∧ ∀ c, op { s with code := c } = .next { t with code := c }

theorem binaryOp_answersOnAnyCode (cost : Nat) (f : Word → Word → Word) (s : State) :
    AnswersOnAnyCode (binaryOp cost f) s := by
  rcases Nat.lt_or_ge s.gas cost with hg | hg
  · exact ⟨_, binaryOp_outOfGas f hg, fun _ => binaryOp_outOfGas f hg⟩
  rcases Nat.lt_or_ge s.stack.length 2 with hs | hs
  · exact ⟨_, binaryOp_underflow f hg hs, fun _ => binaryOp_underflow f hg hs⟩
  obtain ⟨below, n2, n1, hst⟩ := exists_top_two hs
  refine ⟨_, binaryOp_go f hg hst, fun c => (binaryOp_go (s := { s with code := c }) f hg hst).trans ?_⟩
  split <;> rfl

theorem pushOp_answersOnAnyCode (cost n : Nat) (v : Word) (s : State) : AnswersOnAnyCode (pushOp cost n v) s := by
  refine ⟨_, pushOp_eq cost n v s, fun c => (pushOp_eq cost n v { s with code := c }).trans ?_⟩
  split_ifs <;> rfl

/-- The decoder has read the immediate, so an instruction itself reads no byte of code. -/
theorem exec_answersOnAnyCode (i : Instr) (s : State) : AnswersOnAnyCode (exec i) s := by
  rcases Nat.eq_zero_or_pos i.immBytes with h0 | h1
  · rcases format_op_cases h0 with rfl | harith
    · exact ⟨_, exec_stop_eq s, fun _ => exec_stop_eq _⟩
    · simp only [AnswersOnAnyCode, exec_eq_binaryOp harith]
      exact binaryOp_answersOnAnyCode _ _ s
  · simp only [AnswersOnAnyCode, exec_eq_pushOp h1]
    exact pushOp_answersOnAnyCode _ _ _ s

/-- A step of a halted machine is the identity (43_control R142; log entry 5). -/
theorem step_halted {s : State} (hs : s.ended) : step s = .next s := by
  cases hst : s.status with
  | running => exact absurd hst hs
  | success => simp [step, hst]
  | failure k => simp [step, hst]

/-- With no code left at `pc` the machine halts with success (40_execution_loop R68). -/
theorem step_endOfCode {s : State} (hr : s.status = .running) (hp : s.codeLen ≤ s.pc) :
    step s = .next (endOfCodeStep s) := by
  simp [step, hr, endOfCode, hp]

/-- The opcode read below `code_len` is in range (20_memory R31). -/
theorem fetch_ne_outOfRange {s : State} (hp : s.pc < s.codeLen) : fetch s ≠ .outOfRange := by
  rw [fetch_eq (codeByte_lt hp)]
  split <;> simp

/-- Settles O5: the one fault, a code read out of range, needs `pc` at or past `code_len`, where the end-of-code test has
already ended the step. -/
theorem everyStepAnswersANextState : Obligations.EveryStepAnswersANextState := by
  intro s
  by_cases hr : s.status = .running
  · rcases Nat.lt_or_ge s.pc s.codeLen with hp | hp
    · rw [step_fetch hr hp]
      cases hf : fetch s with
      | instr i =>
        obtain ⟨t, ht, -⟩ := exec_answersOnAnyCode i s
        exact ⟨t, ht⟩
      | illegal => exact ⟨_, rfl⟩
      | outOfRange => exact absurd hf (fetch_ne_outOfRange hp)
    · exact ⟨_, step_endOfCode hr hp⟩
  · exact ⟨s, step_halted hr⟩

/-- Settles O44: every outcome of a step or an instruction is an update of other fields of the state. -/
theorem noStepWritesTheCodeSpace : Obligations.NoStepWritesTheCodeSpace :=
  ⟨fun _ _ => step_sameCode, fun _ _ _ => exec_sameCode⟩

/-! What the fetch reads: the opcode byte, and as many bytes after it as the opcode has immediate bytes. -/

/-- The decoder's instruction depends on the opcode and the immediate bytes alone (30_encoding R49, R52). -/
theorem decode_ok_of_same_immediate {op : Byte} {rest rest' r : List Byte} {i : Instr} (h : decode (op :: rest) = .ok i r)
    (himm : rest'.take i.immBytes = rest.take i.immBytes) (hlen : i.immBytes ≤ rest'.length) :
    ∃ r', decode (op :: rest') = .ok i r' := by
  rcases decode_ok_cases h with ⟨h0, rfl, -⟩ | ⟨h1, h32, rfl, -, hv, -⟩
  · refine ⟨rest', ?_⟩
    rcases format_op_cases h0 with rfl | rfl | rfl | rfl | rfl <;> rfl
  · refine ⟨rest'.drop i.immBytes, ?_⟩
    rw [decode_push h1 h32, if_neg (Nat.not_lt.mpr hlen), himm, ← hv, mkPush_self h1]

/-- At or past `code_len` no code space has a byte. -/
theorem codeByte_eq_of_agree {s : State} {c : Memory} {a : Nat}
    (h : a < s.codeLen → Memory.read c a = Memory.read s.code a) : codeByte { s with code := c } a = codeByte s a := by
  simp only [codeByte]
  split
  · next ha => rw [h ha]
  · rfl

theorem take_decodeBytes_eq_of_agree {s s' : State} {a n m : Nat} (hnm : n ≤ m)
    (h : ∀ k, k < n → codeByte s' (a + k) = codeByte s (a + k)) :
    (decodeBytes s' a m).take n = (decodeBytes s a m).take n := by
  refine List.ext_getElem? fun k => ?_
  rcases Nat.lt_or_ge k n with hk | hk
  · simp [hk, getElem?_decodeBytes _ m a k (hk.trans_le hnm), h k hk]
  · simp [hk]

/-- A code space with the same bytes of the fetched instruction gives the same instruction. -/
theorem fetch_instr_of_agree {s : State} {i : Instr} {c : Memory} (hf : fetch s = .instr i)
    (h : ∀ k, k < i.length → s.pc + k < s.codeLen → Memory.read c (s.pc + k) = Memory.read s.code (s.pc + k)) :
    fetch { s with code := c } = .instr i := by
  obtain ⟨op, rest, hop, hdec⟩ := fetch_instr hf
  have hbyte : ∀ k, k < i.length → codeByte { s with code := c } (s.pc + k) = codeByte s (s.pc + k) :=
    fun k hk => codeByte_eq_of_agree (h k hk)
  have hop' : codeByte { s with code := c } s.pc = some op :=
    (hbyte 0 (by simp [Instr.length])).trans hop
  have himm : (decodeBytes { s with code := c } (s.pc + 1) 32).take i.immBytes =
      (decodeBytes s (s.pc + 1) 32).take i.immBytes := by
    refine take_decodeBytes_eq_of_agree (immBytes_le i) fun k hk => ?_
    rw [Nat.add_assoc]
    exact hbyte (1 + k) (Nat.add_lt_add_left hk 1)
  obtain ⟨r', hdec'⟩ := decode_ok_of_same_immediate hdec himm (by simpa using immBytes_le i)
  rw [fetch_eq hop']
  simp [maxLength, hdec']

/-- Settles O52: the fetch reads the instruction's own bytes, and the instruction itself reads none. -/
theorem stepReadsOnlyItsOwnBytes : Obligations.StepReadsOnlyItsOwnBytes := by
  intro s i c hr hf hagree
  obtain ⟨op, -, hop, -⟩ := fetch_instr hf
  obtain ⟨hp, -⟩ := codeByte_some hop
  obtain ⟨t, ht, hcode⟩ := exec_answersOnAnyCode i s
  refine ⟨t, ?_, ?_⟩
  · rw [step_fetch hr hp, hf]
    exact ht
  · rw [step_fetch (s := { s with code := c }) hr hp, fetch_instr_of_agree hf hagree]
    exact hcode c

end Sys2Proof.Machine


/-! PROOF. The encoding (30_encoding): the decoder and the encoder are inverse to each other, and the opcode map is total. -/

namespace Sys2Proof.Machine

/-! The immediate of a PUSHn, as a Word and as its bytes (30_encoding R49). -/

theorem beWord_beBytes_imm {i : Instr} (hi : i.wf) : beWord (beBytes i.immBytes i.imm.toNat) = i.imm := by
  rw [beWord, beNat_beBytes, pow_256, Nat.mod_eq_of_lt hi, BitVec.ofNat_toNat, BitVec.setWidth_eq]

/-- The format `OP` is its opcode byte alone (30_encoding R46). -/
theorem encode_of_immBytes_eq_zero {i : Instr} (h0 : i.immBytes = 0) : encode i = [i.opcode] := by
  simp [encode, beBytes, h0]

/-- The format `OP` carries no immediate that could be too large. -/
theorem wf_of_immBytes_eq_zero {i : Instr} (h0 : i.immBytes = 0) : i.wf := by
  rcases format_op_cases h0 with rfl | rfl | rfl | rfl | rfl <;> decide

/-- An immediate assembled from `imm` is encoded as `imm` (30_encoding R47). -/
theorem encode_of_imm_eq_beWord {i : Instr} {imm : List Byte} (hlen : imm.length = i.immBytes) (hv : i.imm = beWord imm) :
    encode i = i.opcode :: imm := by
  have h32 : imm.length ≤ 32 := hlen ▸ immBytes_le i
  rw [encode, hv, toNat_beWord h32, ← hlen, beBytes_beNat]

theorem wf_of_imm_eq_beWord {i : Instr} {imm : List Byte} (hlen : imm.length = i.immBytes) (hv : i.imm = beWord imm) :
    i.wf := by
  have h32 : imm.length ≤ 32 := hlen ▸ immBytes_le i
  rw [Instr.wf, hv, toNat_beWord h32, ← hlen, ← pow_256]
  exact beNat_lt imm

theorem decode_encode {i : Instr} (hi : i.wf) (rest : List Byte) : decode (encode i ++ rest) = .ok i rest := by
  rcases Nat.eq_zero_or_pos i.immBytes with h0 | h1
  · rcases format_op_cases h0 with rfl | rfl | rfl | rfl | rfl <;> rfl
  · have hlen : ¬ (beBytes i.immBytes i.imm.toNat ++ rest).length < i.immBytes := by simp
    have htake : (beBytes i.immBytes i.imm.toNat ++ rest).take i.immBytes = beBytes i.immBytes i.imm.toNat :=
      List.take_left' (length_beBytes _ _)
    have hdrop : (beBytes i.immBytes i.imm.toNat ++ rest).drop i.immBytes = rest :=
      List.drop_left' (length_beBytes _ _)
    rw [encode, opcode_push h1, List.cons_append, decode_push h1 (immBytes_le i), if_neg hlen, htake, hdrop,
      beWord_beBytes_imm hi, mkPush_self h1]

/-- Settles O12: a PUSHn's immediate fits in its n bytes, and assembling those gives it back. -/
theorem decodeInvertsEncode : Obligations.DecodeInvertsEncode :=
  fun _ rest hi => decode_encode hi rest

/-- Settles O13: the opcode byte fixes the instruction's row, and the immediate is assembled from exactly the bytes that
encode it. -/
theorem encodeInvertsDecode : Obligations.EncodeInvertsDecode := by
  intro bs i rest h
  cases bs with
  | nil => cases h
  | cons op tail =>
    rcases decode_ok_cases h with ⟨h0, rfl, rfl⟩ | ⟨h1, -, rfl, hn, hv, rfl⟩
    · exact ⟨by rw [encode_of_immBytes_eq_zero h0, List.singleton_append], wf_of_immBytes_eq_zero h0⟩
    · have hlen : (tail.take i.immBytes).length = i.immBytes := List.length_take_of_le hn
      refine ⟨?_, wf_of_imm_eq_beWord hlen hv⟩
      rw [encode_of_imm_eq_beWord hlen hv, opcode_push h1, List.cons_append, List.take_append_drop]

/-! The big-endian value as the sum of 30_encoding R49. -/

theorem beSum_cons (b : Byte) (bs : List Byte) : beSum (b :: bs) = b.toNat * 256 ^ bs.length + beSum bs := by
  rw [beSum, List.length_cons, Finset.sum_range_succ', Nat.add_comm, pow_256]
  simp [beSum, Nat.sub_sub, Nat.add_comm 1]

theorem beSum_eq_beNat (bs : List Byte) : beSum bs = beNat bs := by
  induction bs with
  | nil => rfl
  | cons b rest ih => rw [beSum_cons, beNat_cons, ih]

/-- Settles O14: the sum is the decoder's accumulator, which 32 bytes cannot carry past a Word. -/
theorem immediateIsBigEndian : Obligations.ImmediateIsBigEndian := by
  intro bs h32
  rw [beSum_eq_beNat, ← pow_256]
  exact ⟨toNat_beWord h32, beNat_lt bs, rfl⟩

/-! The opcode map (30_encoding R52). -/

theorem decodeOpcode_eq_none_iff {op : Nat} :
    decodeOpcode op = none ↔ (0x05 ≤ op ∧ op ≤ 0x5F) ∨ 0x80 ≤ op := by
  unfold decodeOpcode
  split_ifs <;> simp <;> omega

/-- Settles O10: each word is decoded as written. -/
theorem wordsOfTheEncodingTables : Obligations.WordsOfTheEncodingTables := by
  unfold Obligations.WordsOfTheEncodingTables
  decide

/-- Settles O11: the rows of the map, and the bytes no row covers. -/
theorem opcodeMapIsTotalAndExact : Obligations.OpcodeMapIsTotalAndExact :=
  ⟨rfl, rfl, rfl, rfl, rfl, fun _ => decodeOpcode_push, fun _ _ => decodeOpcode_eq_none_iff⟩

end Sys2Proof.Machine


/-! PROOF. From the encoding to the step (30_encoding, 40_execution_loop): the bytes at `pc` choose the instruction, its opcode
the cost, and the gas beyond that cost chooses nothing. -/

namespace Sys2Proof.Machine

open Host (Outcome)

/-- Below `code_len` the step runs what the decoder reads from `pc` on (40_execution_loop R67, R70). -/
theorem step_of_decode {s : State} {i : Instr} {rest : List Byte} (hr : s.status = .running) (hp : s.pc < s.codeLen)
    (hd : decode (decodeBytes s s.pc maxLength) = .ok i rest) : step s = exec i s := by
  have hop := codeByte_lt hp
  have hbytes : decodeBytes s s.pc maxLength =
      Memory.read s.code s.pc :: decodeBytes s (s.pc + 1) (maxLength - 1) := by
    simp [maxLength, decodeBytes, hop]
  rw [step_fetch hr hp, fetch_eq hop, ← hbytes, hd]

theorem length_encode (i : Instr) : (encode i).length = i.length := by
  simp [encode, Instr.length, Nat.add_comm]

theorem length_le_maxLength (i : Instr) : i.length ≤ maxLength :=
  Nat.add_le_add_left (immBytes_le i) 1

/-- Code bytes that are an encoding are the first bytes the decoder is given. -/
theorem encode_prefix_decodeBytes {s : State} {i : Instr} {a : Nat}
    (h : ∀ k, k < i.length → codeByte s (a + k) = (encode i)[k]?) : encode i <+: decodeBytes s a maxLength := by
  refine List.prefix_iff_getElem?.mpr fun k hk => ?_
  have hki : k < i.length := length_encode i ▸ hk
  rw [getElem?_decodeBytes s maxLength a k (hki.trans_le (length_le_maxLength i)), h k hki,
    List.getElem?_eq_getElem hk, Option.getD_some]

/-- Settles O9: the decoder is given the encoding and whatever follows it, and gives the instruction back. -/
theorem stepRunsEncodedInstruction : Obligations.StepRunsEncodedInstruction := by
  intro s i hr hi hbytes
  have hop : codeByte s s.pc = some i.opcode := hbytes 0 (by simp [Instr.length])
  obtain ⟨hp, -⟩ := codeByte_some hop
  obtain ⟨rest, hrest⟩ := encode_prefix_decodeBytes hbytes
  exact step_of_decode hr hp (hrest ▸ decode_encode hi rest)

/-! The static costs (30_encoding R58). -/

/-- The cost table by opcode byte. -/
def opcodeCost (c : Config) (op : Byte) : Nat :=
  if op = 0x00 then 0
  else if op = 0x01 ∨ op = 0x03 ∨ op = 0x60 then 3
  else if op = 0x02 ∨ op = 0x04 then 5
  else c.gPushN

/-- The opcode decides the cost, never an immediate. -/
theorem staticCost_eq_opcodeCost (c : Config) (i : Instr) : staticCost c i = opcodeCost c i.opcode := by
  cases i <;> rfl

theorem staticCost_of_two_le_immBytes {i : Instr} (h : 2 ≤ i.immBytes) (c : Config) : staticCost c i = c.gPushN := by
  cases i with
  | stop | add | mul | sub | div | push1 => simp [Instr.immBytes] at h
  | _ => rfl

/-- No instruction costs more than MUL or DIV, or than G_PUSHN where that is more. -/
theorem staticCost_le {c : Config} {b : Nat} (h5 : 5 ≤ b) (hpush : c.gPushN ≤ b) (i : Instr) : staticCost c i ≤ b := by
  rw [staticCost_eq_opcodeCost, opcodeCost]
  split_ifs <;> omega

/-- Settles O37: the rows of the table, the opcode as what decides the cost, and the two steps that charge nothing. -/
theorem staticCostTable : Obligations.StaticCostTable := by
  refine ⟨fun c => ⟨rfl, rfl, rfl, rfl, rfl, fun _ => rfl, fun _ h => staticCost_of_two_le_immBytes h c, ?_⟩, rfl,
    fun s => ⟨illegalStep_gas s, endOfCodeStep_gas s⟩⟩
  intro i j hop
  rw [staticCost_eq_opcodeCost, staticCost_eq_opcodeCost, hop]

/-! Gas steers nothing but the OutOfGas test (10_state R25, 40_execution_loop R60). -/

/-- From `s` and from `s` with gas `g`, the operation answers states that differ at most in gas, and takes the same amount. -/
def PaysAlike (op : State → Outcome State Fault Refusal) (s : State) (g : Nat) : Prop :=
  ∃ t u, op s = .next t ∧ op { s with gas := g } = .next u ∧ u = { t with gas := u.gas } ∧ s.gas - t.gas = g - u.gas

/-- What takes a cost both can pay pays alike. -/
theorem paysAlike_of_cost {op : State → Outcome State Fault Refusal} {s t : State} {g c : Nat} (hs : op s = .next t)
    (hg : op { s with gas := g } = .next { t with gas := g - c }) (ht : t.gas = s.gas - c) (hcs : c ≤ s.gas)
    (hcg : c ≤ g) : PaysAlike op s g :=
  ⟨t, _, hs, hg, rfl, by rw [ht, Nat.sub_sub_self hcs, Nat.sub_sub_self hcg]⟩

/-- What takes nothing pays alike. -/
theorem paysAlike_of_free {op : State → Outcome State Fault Refusal} {s t : State} {g : Nat} (hs : op s = .next t)
    (hg : op { s with gas := g } = .next { t with gas := g }) (ht : t.gas = s.gas) : PaysAlike op s g :=
  paysAlike_of_cost (c := 0) hs hg ht (Nat.zero_le _) (Nat.zero_le _)

theorem binaryOp_paysAlike {cost g : Nat} {s : State} (f : Word → Word → Word) (hcs : cost ≤ s.gas) (hcg : cost ≤ g) :
    PaysAlike (binaryOp cost f) s g := by
  rcases Nat.lt_or_ge s.stack.length 2 with hs | hs
  · exact paysAlike_of_cost (binaryOp_underflow f hcs hs) (binaryOp_underflow f hcg hs) rfl hcs hcg
  · obtain ⟨below, n2, n1, hst⟩ := exists_top_two hs
    refine paysAlike_of_cost (binaryOp_go f hcs hst) ((binaryOp_go (s := { s with gas := g }) f hcg hst).trans ?_) ?_ hcs hcg
    · split <;> rfl
    · split <;> rfl

theorem pushOp_paysAlike {cost g : Nat} {s : State} (n : Nat) (v : Word) (hcs : cost ≤ s.gas) (hcg : cost ≤ g) :
    PaysAlike (pushOp cost n v) s g := by
  have hs := pushOp_eq cost n v s
  have hg := pushOp_eq cost n v { s with gas := g }
  rw [if_neg (Nat.not_lt.mpr hcs)] at hs
  rw [if_neg (Nat.not_lt.mpr hcg)] at hg
  refine paysAlike_of_cost hs (hg.trans ?_) ?_ hcs hcg
  · split_ifs <;> rfl
  · split_ifs <;> rfl

theorem exec_paysAlike {i : Instr} {s : State} {g : Nat} (hcs : staticCost s.cfg i ≤ s.gas) (hcg : staticCost s.cfg i ≤ g) :
    PaysAlike (exec i) s g := by
  rcases Nat.eq_zero_or_pos i.immBytes with h0 | h1
  · rcases format_op_cases h0 with rfl | harith
    · exact paysAlike_of_free (exec_stop_eq s) (exec_stop_eq _) rfl
    · simpa only [PaysAlike, exec_eq_binaryOp harith] using binaryOp_paysAlike (arithResult i) hcs hcg
  · simpa only [PaysAlike, exec_eq_pushOp h1] using pushOp_paysAlike i.immBytes i.imm hcs hcg

theorem decodeBytes_gas (s : State) (g a n : Nat) : decodeBytes { s with gas := g } a n = decodeBytes s a n := by
  induction n generalizing a with
  | zero => rfl
  | succ k ih => simp [decodeBytes, codeByte, ih]

/-- The fetch does not read the gas register. -/
theorem fetch_gas (s : State) (g : Nat) : fetch { s with gas := g } = fetch s := by
  simp [fetch, codeByte, decodeBytes_gas]

/-- Settles O51: halting and failing to decode take nothing, and an instruction takes its static cost. -/
theorem gasDoesNotSteerASufficientlyFundedStep : Obligations.GasDoesNotSteerASufficientlyFundedStep := by
  intro s g h5s hps h5g hpg
  change PaysAlike step s g
  by_cases hr : s.status = .running
  · rcases Nat.lt_or_ge s.pc s.codeLen with hp | hp
    · have hs := step_fetch hr hp
      have hg := step_fetch (s := { s with gas := g }) hr hp
      rw [fetch_gas] at hg
      cases hf : fetch s with
      | instr i =>
        simp only [hf] at hs hg
        simpa only [PaysAlike, hs, hg] using exec_paysAlike (staticCost_le h5s hps i) (staticCost_le h5g hpg i)
      | illegal =>
        simp only [hf] at hs hg
        exact paysAlike_of_free hs hg rfl
      | outOfRange => exact absurd hf (fetch_ne_outOfRange hp)
    · exact paysAlike_of_free (step_endOfCode hr hp) (step_endOfCode hr hp) rfl
  · exact paysAlike_of_free (step_halted hr) (step_halted hr) rfl

end Sys2Proof.Machine


/-! PROOF. The execution loop (40_execution_loop): an instruction completes or fails, a failure is precise, every step keeps the
machine's invariant, and every run ends. -/

namespace Sys2Proof.Machine

/-! What the fetched instruction leaves behind: it completes, or it fails with a kind (R67, R70, R74). -/

/-- From `s`, instruction `i` has run to its end and left `t`. -/
structure Completes (i : Instr) (s t : State) : Prop where
  status : t.status = if haltFlag i = true then .success else .running
  pc : t.pc = s.pc + i.length
  pc_le : s.pc < s.codeLen → t.pc ≤ s.codeLen
  gas : t.gas + staticCost s.cfg i = s.gas
  sp_le : s.sp ≤ s.cfg.stackDepth → t.sp ≤ s.cfg.stackDepth

/-- From `s`, instruction `i` has failed with kind `k` and left `t`. The stack is kept inside 92 D17's domain (log entry 12). -/
structure FailsWith (i : Instr) (s t : State) (k : FailureKind) : Prop where
  status : t.status = .failure k
  kind : k ≠ .invalidOpcode
  pc : t.pc = s.pc + 1
  gas : t.gas + (if k = .outOfGas then 0 else staticCost s.cfg i) = s.gas
  stack : s.sp ≤ s.cfg.stackDepth → t.stack = s.stack

theorem haltFlag_iff {i : Instr} : haltFlag i = true ↔ i = .stop := decide_eq_true_iff

theorem haltFlag_of_arithmetic {i : Instr} (h : i = .add ∨ i = .mul ∨ i = .sub ∨ i = .div) : haltFlag i = false := by
  rcases h with rfl | rfl | rfl | rfl <;> rfl

theorem length_of_arithmetic {i : Instr} (h : i = .add ∨ i = .mul ∨ i = .sub ∨ i = .div) : i.length = 1 := by
  rcases h with rfl | rfl | rfl | rfl <;> rfl

theorem haltFlag_of_push {i : Instr} (h : 1 ≤ i.immBytes) : haltFlag i = false := by
  refine decide_eq_false ?_
  rintro rfl
  exact absurd h (by decide)

theorem completes_stop (s : State) : Completes .stop s { s with pc := s.pc + 1, status := .success } :=
  ⟨rfl, rfl, id, rfl, id⟩

/-- A failure whose cost has been taken. -/
theorem failsWith_of_paid {i : Instr} {s : State} {k : FailureKind} {st : List Word} (hk : k ≠ .invalidOpcode)
    (hgas : k ≠ .outOfGas) (hcost : staticCost s.cfg i ≤ s.gas) (hst : s.sp ≤ s.cfg.stackDepth → st = s.stack) :
    FailsWith i s { s with pc := s.pc + 1, gas := s.gas - staticCost s.cfg i, stack := st, status := .failure k } k :=
  ⟨rfl, hk, rfl, by simp [hgas, hcost], hst⟩

/-- An instruction run by a running machine completes or fails. -/
theorem completes_or_failsWith {i : Instr} {s t : State} (hr : s.status = .running) (h : exec i s = .next t) :
    Completes i s t ∨ ∃ k, FailsWith i s t k := by
  rcases exec_cases h with ⟨rfl, rfl⟩ | ⟨-, -, rfl⟩ | ⟨hi, hcost, harith⟩ | ⟨hi, hcost, hpush⟩
  · exact .inl (completes_stop s)
  · exact .inr ⟨.outOfGas, rfl, by decide, rfl, rfl, fun _ => rfl⟩
  · rcases harith with ⟨-, rfl⟩ | ⟨below, n2, n1, hst, hfull, rfl⟩ | ⟨below, n2, n1, hst, -, rfl⟩
    · exact .inr ⟨_, failsWith_of_paid (by decide) (by decide) hcost fun _ => rfl⟩
    · refine .inr ⟨_, failsWith_of_paid (by decide) (by decide) hcost fun hsp => ?_⟩
      have hlen : s.sp = below.length + 2 := by simp [hst]
      omega
    · refine .inl ⟨by simp [hr, haltFlag_of_arithmetic hi], by simp [length_of_arithmetic hi], id,
        Nat.sub_add_cancel hcost, fun hsp => ?_⟩
      have hlen : s.sp = below.length + 2 := by simp [hst]
      rw [sp_eq, List.length_append, List.length_singleton]
      omega
  · rcases hpush with ⟨-, rfl⟩ | ⟨-, -, rfl⟩ | ⟨hlen, hroom, rfl⟩
    · exact .inr ⟨_, failsWith_of_paid (by decide) (by decide) hcost fun _ => rfl⟩
    · exact .inr ⟨_, failsWith_of_paid (by decide) (by decide) hcost fun _ => rfl⟩
    · refine .inl ⟨by simp [hr, haltFlag_of_push hi], Nat.add_assoc _ _ _, fun _ => hlen,
        Nat.sub_add_cancel hcost, fun hsp => ?_⟩
      rw [sp_eq, List.length_append, List.length_singleton]
      exact Nat.lt_of_le_of_ne hsp hroom

/-- Settles O6: STOP, the arithmetic form and the PUSH form each answer a next state, whatever the code space. -/
theorem everyInstructionAnswersANextState : Obligations.EveryInstructionAnswersANextState := by
  intro i s
  obtain ⟨t, ht, -⟩ := exec_answersOnAnyCode i s
  exact ⟨t, ht⟩

/-- Settles O43: an instruction that does not fail completes, and its status is then its halt flag's. -/
theorem haltFlagIsStopsAlone : Obligations.HaltFlagIsStopsAlone := by
  intro i s t hr h hnot
  rcases completes_or_failsWith hr h with hdone | ⟨k, hfail⟩
  · exact ⟨hdone.status, haltFlag_iff⟩
  · exact absurd hfail.status (hnot k)

/-! The registers over one step: `pc` (R73), `sp` (10_state R11) and gas (R62). -/

theorem exec_pc_le {i : Instr} {s t : State} (hr : s.status = .running) (hp : s.pc < s.codeLen) (h : exec i s = .next t) :
    t.pc ≤ s.codeLen := by
  rcases completes_or_failsWith hr h with hdone | ⟨k, hfail⟩
  · exact hdone.pc_le hp
  · exact hfail.pc ▸ hp

theorem step_keeps_pc_le {s t : State} (hp : s.pc ≤ s.codeLen) (h : step s = .next t) : t.pc ≤ t.codeLen := by
  rcases step_cases h with ⟨-, rfl⟩ | ⟨-, -, rfl⟩ | ⟨-, hlt, -, rfl⟩ | ⟨i, hr, hlt, -, hexec⟩
  · exact hp
  · exact hp
  · exact hlt
  · obtain ⟨-, hcodeLen, -, -⟩ := exec_sameCode hexec
    exact hcodeLen ▸ exec_pc_le hr hlt hexec

/-- Settles O4: reset starts at address 0, and only an instruction wholly below `code_len` passes its immediate. -/
theorem pcStaysWithinTheCode : Obligations.PcStaysWithinTheCode :=
  ⟨fun _ => Nat.zero_le _, fun _ _ => step_keeps_pc_le⟩

theorem exec_sp_le {i : Instr} {s t : State} (hr : s.status = .running) (hs : s.sp ≤ s.cfg.stackDepth)
    (h : exec i s = .next t) : t.sp ≤ s.cfg.stackDepth := by
  rcases completes_or_failsWith hr h with hdone | ⟨k, hfail⟩
  · exact hdone.sp_le hs
  · rwa [sp_eq, hfail.stack hs]

theorem step_keeps_sp_le {s t : State} (hs : s.sp ≤ s.cfg.stackDepth) (h : step s = .next t) :
    t.sp ≤ t.cfg.stackDepth := by
  rcases step_cases h with ⟨-, rfl⟩ | ⟨-, -, rfl⟩ | ⟨-, -, -, rfl⟩ | ⟨i, hr, -, -, hexec⟩
  · exact hs
  · exact hs
  · exact hs
  · obtain ⟨hcfg, -⟩ := exec_sameCode hexec
    exact hcfg ▸ exec_sp_le hr hs hexec

/-- The fetched instruction was within the gas of `s`, and its static cost is what `t` has less. -/
def PaysForFetched (s t : State) : Prop :=
  ∃ i : Instr, fetch s = .instr i ∧ staticCost s.cfg i ≤ s.gas ∧ t.gas + staticCost s.cfg i = s.gas

theorem paysForFetched_of_gas {i : Instr} {s t : State} (hf : fetch s = .instr i)
    (hgas : t.gas + staticCost s.cfg i = s.gas) : PaysForFetched s t :=
  ⟨i, hf, hgas ▸ Nat.le_add_left _ _, hgas⟩

/-- A step that completes an instruction pays its cost; one that halts, finds no instruction or runs out of gas is free. -/
theorem step_free_or_pays {s t : State} (h : step s = .next t) :
    (t.gas = s.gas ∧ ¬ (s.status = .running ∧ t.status = .running)) ∨ PaysForFetched s t := by
  rcases step_cases h with ⟨hend, rfl⟩ | ⟨-, -, rfl⟩ | ⟨-, -, -, rfl⟩ | ⟨i, hr, -, hf, hexec⟩
  · exact .inl ⟨rfl, fun ⟨hr, _⟩ => hend hr⟩
  · exact .inl ⟨rfl, by simp⟩
  · exact .inl ⟨rfl, by simp⟩
  · rcases completes_or_failsWith hr hexec with hdone | ⟨k, hfail⟩
    · exact .inr (paysForFetched_of_gas hf hdone.gas)
    · have hgas := hfail.gas
      split at hgas
      · exact .inl ⟨hgas, by simp [hfail.status]⟩
      · exact .inr (paysForFetched_of_gas hf hgas)

theorem step_gas_le {s t : State} (h : step s = .next t) : t.gas ≤ s.gas := by
  rcases step_free_or_pays h with ⟨hgas, -⟩ | ⟨i, -, -, hgas⟩
  · exact hgas.le
  · exact hgas ▸ Nat.le_add_right _ _

/-- Settles O48: a step is free or pays for the instruction it fetched, and no free step goes from Running to Running. -/
theorem gasOnlyPaysStaticCosts : Obligations.GasOnlyPaysStaticCosts := by
  refine fun s t h => ⟨step_gas_le h, (step_free_or_pays h).imp_left And.left, fun hr ht => ?_⟩
  rcases step_free_or_pays h with ⟨-, hnot⟩ | hpays
  · exact absurd ⟨hr, ht⟩ hnot
  · exact hpays

/-- Settles O3: each part of the invariant is kept by a step of its own rule, and the code space is not written. -/
theorem everyStepKeepsTheInvariant : Obligations.EveryStepKeepsTheInvariant := by
  rintro s t ⟨hpc, hlen, hgas, hsp, hcode, hcells⟩ h
  have hsp' := step_keeps_sp_le hsp h
  obtain ⟨hcfg, hcodeLen, hcode', -⟩ := step_sameCode h
  refine ⟨step_keeps_pc_le hpc h, ?_, ?_, hsp', ?_, ?_⟩
  · rwa [hcfg, hcodeLen]
  · exact hcfg ▸ (step_gas_le h).trans_lt hgas
  · rwa [hcode']
  · rwa [hcode', hcodeLen]

/-! Every run ends (R72): a step from Running to Running passes a whole instruction, so `code_len - pc` bounds them. -/

theorem step_running_advances {s t : State} (hr : s.status = .running) (h : step s = .next t) (ht : t.status = .running) :
    ∃ i : Instr, fetch s = .instr i ∧ t.pc = s.pc + i.length := by
  rcases step_cases h with ⟨hend, -⟩ | ⟨-, -, rfl⟩ | ⟨-, -, -, rfl⟩ | ⟨i, -, -, hf, hexec⟩
  · exact absurd hr hend
  · cases ht
  · cases ht
  · rcases completes_or_failsWith hr hexec with hdone | ⟨k, hfail⟩
    · exact ⟨i, hf, hdone.pc⟩
    · cases hfail.status.symm.trans ht

theorem lt_add_length (i : Instr) (pc : Nat) : pc < pc + i.length :=
  Nat.lt_add_of_pos_right (Nat.lt_of_lt_of_le Nat.one_pos (Nat.le_add_right _ _))

theorem step_endOfCode_ended {s t : State} (hr : s.status = .running) (hp : s.codeLen ≤ s.pc) (h : step s = .next t) :
    t.ended := by
  cases (step_endOfCode hr hp).symm.trans h
  simp [State.ended]

theorem endsWithin_of_ended {s : State} (hs : s.ended) (k : Nat) : endsWithin k s :=
  ⟨0, s, Nat.zero_le k, rfl, hs⟩

theorem run_succ {s t : State} (h : step s = .next t) (j : Nat) : Host.Core.run core (j + 1) s = Host.Core.run core j t := by
  have hcore : core.step s = .next t := h
  simp [Host.Core.run, hcore]

theorem endsWithin_succ {k : Nat} {s t : State} (h : step s = .next t) (ht : endsWithin k t) : endsWithin (k + 1) s := by
  obtain ⟨j, u, hj, hrun, hu⟩ := ht
  exact ⟨j + 1, u, Nat.succ_le_succ hj, (run_succ h j).trans hrun, hu⟩

/-- By induction on a bound of the code left at `pc`: with none left the next step halts, and a step that does not end the run
passes at least one byte. -/
theorem endsWithin_of_codeLeft {k : Nat} {s : State} (hk : s.codeLen - s.pc ≤ k) : endsWithin (k + 1) s := by
  induction k generalizing s with
  | zero =>
    by_cases hr : s.status = .running
    · have hp : s.codeLen ≤ s.pc := Nat.le_of_sub_eq_zero (Nat.le_zero.mp hk)
      have hstep := step_endOfCode hr hp
      exact endsWithin_succ hstep (endsWithin_of_ended (step_endOfCode_ended hr hp hstep) 0)
    · exact endsWithin_of_ended hr 1
  | succ k ih =>
    by_cases hr : s.status = .running
    · obtain ⟨t, hstep⟩ := everyStepAnswersANextState s
      refine endsWithin_succ hstep ?_
      by_cases ht : t.status = .running
      · obtain ⟨i, -, hpc⟩ := step_running_advances hr hstep ht
        obtain ⟨-, hcodeLen, -⟩ := step_sameCode hstep
        have hlt := lt_add_length i s.pc
        exact ih (by omega)
      · exact endsWithin_of_ended ht _
    · exact endsWithin_of_ended hr _

/-- Settles O7: the code left at `pc` bounds the steps of a run, and it is the whole bytecode at reset. -/
theorem everyRunEnds : Obligations.EveryRunEnds := by
  refine ⟨fun h => endsWithin_of_codeLeft (Nat.sub_le _ _), fun s _ => endsWithin_of_codeLeft le_rfl, ?_,
    fun _ _ => step_keeps_pc_le, fun s t hr hp => step_endOfCode_ended hr hp.ge⟩
  intro s t hr h ht
  obtain ⟨i, hf, hpc⟩ := step_running_advances hr h ht
  exact ⟨i, hf, hpc, hpc ▸ lt_add_length i s.pc⟩

/-! A failed step (R74, R75): there was an opcode at `pc`, and the machine has passed that byte and no more. -/

/-- A step fails on an illegal opcode byte, or in the instruction it fetched. -/
theorem step_failure_cases {s t : State} {k : FailureKind} (hr : s.status = .running) (h : step s = .next t)
    (hk : t.status = .failure k) :
    s.pc < s.codeLen ∧ ((k = .invalidOpcode ∧ t = illegalStep s) ∨ ∃ i, fetch s = .instr i ∧ FailsWith i s t k) := by
  rcases step_cases h with ⟨hend, -⟩ | ⟨-, -, rfl⟩ | ⟨-, hp, -, rfl⟩ | ⟨i, -, hp, hf, hexec⟩
  · exact absurd hr hend
  · cases hk
  · cases hk
    exact ⟨hp, .inl ⟨rfl, rfl⟩⟩
  · rcases completes_or_failsWith hr hexec with hdone | ⟨k', hfail⟩
    · have hstatus := hdone.status.symm.trans hk
      split at hstatus <;> cases hstatus
    · cases hfail.status.symm.trans hk
      exact ⟨hp, .inr ⟨i, hf, hfail⟩⟩

/-- Settles O39: the illegal byte is passed and nothing charged; an instruction that fails has passed its opcode and, unless the
gas was short, paid its cost. -/
theorem failuresArePrecise : Obligations.FailuresArePrecise := by
  intro s t k hr hsp h hk
  have hcode := step_sameCode h
  obtain ⟨-, ⟨rfl, rfl⟩ | ⟨i, hf, hfail⟩⟩ := step_failure_cases hr h hk
  · exact ⟨rfl, rfl, hcode, fun _ => rfl, fun _ hne => absurd rfl hne⟩
  · have hgas := hfail.gas
    refine ⟨hfail.pc, hfail.stack hsp, hcode, ?_, fun hne _ => ?_⟩
    · rintro (rfl | rfl)
      · exact hgas
      · exact absurd rfl hfail.kind
    · rw [if_neg hne] at hgas
      exact ⟨i, hf, by omega, by omega⟩

theorem step_failure_pc {s t : State} {k : FailureKind} (hr : s.status = .running) (h : step s = .next t)
    (hk : t.status = .failure k) : s.pc < s.codeLen ∧ t.pc = s.pc + 1 := by
  obtain ⟨hp, ⟨-, rfl⟩ | ⟨i, -, hfail⟩⟩ := step_failure_cases hr h hk
  · exact ⟨hp, rfl⟩
  · exact ⟨hp, hfail.pc⟩

theorem codeByte_of_sameCode {s t : State} (h : sameCode s t) (a : Nat) : codeByte t a = codeByte s a := by
  obtain ⟨-, hcodeLen, hcode, -⟩ := h
  simp [codeByte, hcodeLen, hcode]

/-- The host finds the byte the failed step fetched just behind `pc`. -/
theorem step_failure_opcode {s t : State} (hr : s.status = .running) (h : step s = .next t)
    (hk : ∃ k, t.status = .failure k) :
    1 ≤ t.pc ∧ codeByte t (t.pc - 1) = codeByte s s.pc ∧ (codeByte t (t.pc - 1)).isSome := by
  obtain ⟨k, hk⟩ := hk
  obtain ⟨hp, hpc⟩ := step_failure_pc hr h hk
  have hbyte : codeByte t (t.pc - 1) = codeByte s s.pc := by
    rw [codeByte_of_sameCode (step_sameCode h), hpc, Nat.add_sub_cancel]
  exact ⟨hpc ▸ Nat.le_add_left 1 _, hbyte, by simp [hbyte, codeByte_lt hp]⟩

/-- Settles O40: the failing step leaves `pc` one past the byte it fetched, and a halted machine keeps `pc` and the code. -/
theorem failingOpcodeIsJustBehindPc : Obligations.FailingOpcodeIsJustBehindPc := by
  refine ⟨fun s t => step_failure_opcode, fun s t hs h hk => ?_, by simp⟩
  by_cases hr : s.status = .running
  · obtain ⟨hpc, -, hsome⟩ := step_failure_opcode hr h hk
    exact ⟨hpc, hsome⟩
  · obtain rfl := step_of_ended hr h
    exact hs hk

/-! The start of a step (R66 to R68), and the shared operations (R60, R63, R64). -/

/-- Settles O8: the decoder's bytes begin with the opcode byte the fetch reads. -/
theorem stepRunsDecodedInstruction : Obligations.StepRunsDecodedInstruction := fun _ _ _ => step_of_decode

/-- Settles O16: the end-of-code test stands before the fetch. -/
theorem endOfCodeHaltsSuccessfully : Obligations.EndOfCodeHaltsSuccessfully := fun _ => step_endOfCode

/-- The bytes the host places at `pc` are the bytes the decoder is given there. -/
theorem decodeBytes_withFetchWord (s : State) (nbits w : Nat) :
    decodeBytes (s.withFetchWord nbits w) s.pc maxLength = tableBytes nbits w := by
  refine List.ext_getElem? fun k => ?_
  rcases Nat.lt_or_ge k maxLength with hk | hk
  · rw [getElem?_decodeBytes _ maxLength s.pc k hk, codeByte_lt (by simp [hk])]
    simp [read_place, hk]
  · rw [List.getElem?_eq_none (by simpa using hk), List.getElem?_eq_none (by simpa using hk)]

theorem decode_of_decodeTableWord {nbits w : Nat} {i : Instr} (h : decodeTableWord nbits w = some i) :
    ∃ rest, decode (tableBytes nbits w) = .ok i rest := by
  unfold decodeTableWord at h
  split at h
  · next j rest hd =>
    cases h
    exact ⟨rest, hd⟩
  · cases h

/-- Settles O15: the placed bytes are what the fetch decodes, since the host has made `code_len` pass them all. -/
theorem tableWordRunsNext : Obligations.TableWordRunsNext := by
  intro s nbits w i h
  obtain ⟨rest, hd⟩ := decode_of_decodeTableWord h
  have hp : (s.withFetchWord nbits w).pc < (s.withFetchWord nbits w).codeLen := by
    simp [maxLength]
  exact step_of_decode rfl hp ((decodeBytes_withFetchWord s nbits w).symm ▸ hd)

/-- Settles O19: the two outcomes of the strict test, and the two amounts at which nothing or everything is taken. -/
theorem consumeChargesOrFails : Obligations.ConsumeChargesOrFails := by
  refine fun amount s => ⟨consume_stopped, consume_go, consume_go (Nat.zero_le _), ?_⟩
  rw [consume_go le_rfl, Nat.sub_self]

/-- Settles O20: below a full stack the Word is appended at index `sp`. -/
theorem pushAppendsOrOverflows : Obligations.PushAppendsOrOverflows := by
  refine fun w s => ⟨push_stopped, fun hroom => ⟨_, push_go hroom.ne, rfl, ?_, ?_, fun k hk => ?_⟩⟩
  · simp
  · simp
  · exact List.getElem?_append_left hk

/-- Settles O21: a stack of two Words or more ends in the two that are removed. -/
theorem popTwoTakesTheTopTwo : Obligations.PopTwoTakesTheTopTwo := by
  refine fun s => ⟨popTwo_stopped, fun htwo => ?_⟩
  obtain ⟨below, n2, n1, hst⟩ := exists_top_two htwo
  refine ⟨_, popTwo_go hst, ?_, ?_, ?_⟩
  · simp [hst]
  · simp [hst]
  · simp [hst]

end Sys2Proof.Machine


/-! PROOF. Word arithmetic (41_arithmetic): the four laws (R82 to R85), the four instructions (R86 to R90), and the order in which
two pushed Words are operands. -/

namespace Sys2Proof.Machine

open Host (Outcome)

/-! Each law reduces its exact integer result modulo `2^256`, and so is the operation of the same name on bit vectors. -/

theorem wordAdd_eq_add (x y : Word) : wordAdd x y = x + y := by
  simp [wordAdd, BitVec.ofNat_add]

theorem wordSub_eq_sub (x y : Word) : wordSub x y = x - y := by
  simp [wordSub, Int.sub_eq_add_neg, BitVec.ofInt_add, BitVec.ofInt_neg, BitVec.sub_eq_add_neg]

theorem wordMul_eq_mul (x y : Word) : wordMul x y = x * y := by
  simp [wordMul, BitVec.ofNat_mul]

/-- Bit vectors too answer 0 on the divisor 0 (R85). -/
theorem wordDiv_eq_div (x y : Word) : wordDiv x y = x / y := by
  rw [wordDiv, ← BitVec.udiv_def]
  split
  · next hy =>
    rw [hy]
    exact BitVec.udiv_zero.symm
  · rfl

/-- Settles O22: two Words sum to less than `2 * 2^256`, so reducing subtracts the modulus at most once. -/
theorem additionLaw : Obligations.AdditionLaw := by
  refine ⟨fun x y => ?_, by decide⟩
  have hsum : (wordAdd x y).toNat = (x.toNat + y.toNat) % 2 ^ 256 := BitVec.toNat_ofNat _ _
  refine ⟨hsum, by omega, by omega, ?_, ?_⟩
  · rw [wordAdd_eq_add, wordAdd_eq_add, BitVec.add_comm]
  · rw [wordAdd_eq_add]
    exact BitVec.add_zero x

/-- Settles O23: the difference of two Words is above `-2^256`, so reducing adds the modulus at most once. -/
theorem subtractionLaw : Obligations.SubtractionLaw := by
  refine ⟨fun x y => ?_, by decide⟩
  have hdiff : (wordSub x y).toNat = (2 ^ 256 - y.toNat + x.toNat) % 2 ^ 256 := by
    rw [wordSub_eq_sub, BitVec.toNat_sub]
  refine ⟨by omega, by omega, by omega, by omega, ?_, ?_, ?_⟩
  · rw [wordSub_eq_sub]
    exact BitVec.sub_self x
  · rw [wordSub_eq_sub]
    exact BitVec.sub_zero x
  · rw [wordSub_eq_sub]
    exact BitVec.toNat_sub 0 y

/-- Settles O24: the product of bit vectors is the exact product modulo `2^256`. -/
theorem multiplicationLaw : Obligations.MultiplicationLaw := by
  refine ⟨fun x y => ?_, by decide, by decide⟩
  simp only [wordMul_eq_mul]
  exact ⟨BitVec.toNat_mul x y, BitVec.mul_comm x y, BitVec.mul_zero, BitVec.mul_one x⟩

/-- Settles O25: the quotient of bit vectors is the exact one, which the divisor bounds on both sides. -/
theorem divisionLaw : Obligations.DivisionLaw := by
  intro x y
  simp only [wordDiv_eq_div]
  refine ⟨?_, fun hy => ?_, BitVec.udiv_one, fun hx => ?_, BitVec.zero_udiv, fun hlt => ?_⟩
  · rintro rfl
    exact BitVec.udiv_zero
  · have hpos : 0 < y.toNat := BitVec.toNat_pos_of_ne_zero hy
    rw [BitVec.toNat_udiv]
    refine ⟨rfl, Nat.div_mul_le_self _ _, ?_⟩
    rw [Nat.mul_comm]
    exact Nat.lt_mul_div_succ _ hpos
  · rw [BitVec.udiv_self]
    exact if_neg (by simpa using hx)
  · exact BitVec.udiv_eq_zero_iff_eq_zero_or_lt.mpr (.inr hlt)

/-- Settles O26: the subtrahend cancels in the first sum, and each Word cancels in the second. -/
theorem subtractionCancels : Obligations.SubtractionCancels := by
  intro x y
  simp only [wordAdd_eq_add, wordSub_eq_sub]
  refine ⟨sub_add_cancel x y, ?_⟩
  calc x - y + (y - x) = x - x := sub_add_sub_cancel x y x
    _ = 0 := sub_self x

/-! What an arithmetic instruction does, at its own cost and result (R90). -/

section

variable {i : Instr} {s : State} {below : List Word} {n1 n2 : Word} (hi : i = .add ∨ i = .mul ∨ i = .sub ∨ i = .div)

include hi

theorem exec_arithmetic_outOfGas (hgas : s.gas < staticCost s.cfg i) :
    exec i s = .next { s with pc := s.pc + 1, status := .failure .outOfGas } := by
  rw [exec_eq_binaryOp hi, binaryOp_outOfGas _ hgas]

theorem exec_arithmetic_underflow (hgas : staticCost s.cfg i ≤ s.gas) (hst : s.stack.length < 2) :
    exec i s = .next
      { s with pc := s.pc + 1, gas := s.gas - staticCost s.cfg i, status := .failure .stackUnderflow } := by
  rw [exec_eq_binaryOp hi, binaryOp_underflow _ hgas hst]

/-- Of a stack inside its bound two Words are removed, so there is room for the one result. -/
theorem exec_arithmetic_completes (hgas : staticCost s.cfg i ≤ s.gas) (hst : s.stack = below ++ [n2, n1])
    (hsp : s.stack.length ≤ s.cfg.stackDepth) :
    exec i s = .next
      { s with pc := s.pc + 1, gas := s.gas - staticCost s.cfg i, stack := below ++ [arithResult i n1 n2] } := by
  have hlen : s.stack.length = below.length + 2 := by simp [hst]
  have hroom : below.length ≠ s.cfg.stackDepth := by omega
  rw [exec_eq_binaryOp hi, binaryOp_go _ hgas hst, if_neg hroom]

end

/-- Settles O45: a failure leaves the whole stack, and a result stands where the second from top stood. -/
theorem arithmeticFrame : Obligations.ArithmeticFrame := by
  intro i s t hsp hi h
  refine ⟨exec_sameCode h, ?_⟩
  rcases Nat.lt_or_ge s.gas (staticCost s.cfg i) with hgas | hgas
  · obtain rfl := Outcome.next.inj (h.symm.trans (exec_arithmetic_outOfGas hi hgas))
    exact ⟨rfl, fun _ _ => rfl, .inl rfl, .inl rfl, .inr ⟨_, rfl⟩, fun hnot => absurd rfl (hnot _)⟩
  have hpaid : s.gas - staticCost s.cfg i + staticCost s.cfg i = s.gas := Nat.sub_add_cancel hgas
  rcases Nat.lt_or_ge s.stack.length 2 with htwo | htwo
  · obtain rfl := Outcome.next.inj (h.symm.trans (exec_arithmetic_underflow hi hgas htwo))
    exact ⟨rfl, fun _ _ => rfl, .inr hpaid, .inl rfl, .inr ⟨_, rfl⟩, fun hnot => absurd rfl (hnot _)⟩
  · obtain ⟨below, n2, n1, hst⟩ := exists_top_two htwo
    obtain rfl := Outcome.next.inj (h.symm.trans (exec_arithmetic_completes hi hgas hst hsp))
    have hshorter : (below ++ [arithResult i n1 n2]).length + 1 = s.sp := by simp [hst]
    refine ⟨rfl, fun k hk => ?_, .inr hpaid, .inr hshorter, .inl rfl, fun _ => ⟨rfl, hpaid, hshorter⟩⟩
    have hbelow : k < below.length := by simpa [hst] using hk
    rw [hst, List.getElem?_append_left hbelow, List.getElem?_append_left hbelow]

/-! The rule of an arithmetic instruction (R86 to R90), from its row of the opcode map, its cost and its result. -/

theorem immBytes_of_arithmetic {i : Instr} (hi : i = .add ∨ i = .mul ∨ i = .sub ∨ i = .div) : i.immBytes = 0 := by
  rcases hi with rfl | rfl | rfl | rfl <;> rfl

/-- A running machine at the opcode of an instruction without immediate runs that instruction. -/
theorem step_of_opcode {i : Instr} (h0 : i.immBytes = 0) {s : State} (hr : s.status = .running)
    (hop : codeByte s s.pc = some i.opcode) : step s = exec i s := by
  refine stepRunsEncodedInstruction s i hr (wf_of_immBytes_eq_zero h0) fun k hk => ?_
  obtain rfl : k = 0 := by
    rw [Instr.length, h0] at hk
    omega
  rw [encode_of_immBytes_eq_zero h0]
  exact hop

/-- `ArithmeticRule` reduces the integer result by the mathematical modulus, which is how a Word takes an integer. -/
theorem ofNat_emod_toNat (z : Int) : BitVec.ofNat 256 (z % 2 ^ 256).toNat = BitVec.ofInt 256 z := by
  apply BitVec.eq_of_toNat_eq
  rw [BitVec.toNat_ofNat, BitVec.toNat_ofInt]
  omega

theorem arithmeticRule_of_result {i : Instr} (hi : i = .add ∨ i = .mul ∨ i = .sub ∨ i = .div) {cost : Nat}
    {f : Int → Int → Int} (hcost : ∀ c, staticCost c i = cost)
    (hresult : ∀ n1 n2 : Word, arithResult i n1 n2 = BitVec.ofInt 256 (f n1.toNat n2.toNat)) :
    ArithmeticRule i.opcode i cost f := by
  have h0 := immBytes_of_arithmetic hi
  have hencode := encode_of_immBytes_eq_zero h0
  refine ⟨hencode, fun rest => ?_, fun s => step_of_opcode h0, fun s hgas => ?_, fun s hgas htwo => ?_,
    fun s below n1 n2 hgas hst hsp => ?_⟩
  · have hdecode := decode_encode (wf_of_immBytes_eq_zero h0) rest
    rwa [hencode] at hdecode
  · rw [← hcost s.cfg] at hgas
    exact exec_arithmetic_outOfGas hi hgas
  · rw [← hcost s.cfg] at hgas ⊢
    exact exec_arithmetic_underflow hi hgas htwo
  · rw [← hcost s.cfg] at hgas ⊢
    rw [ofNat_emod_toNat, ← hresult]
    exact exec_arithmetic_completes hi hgas hst hsp

/-- Settles O27: a sum of naturals is the same integer sum. -/
theorem addMeetsItsRule : Obligations.AddMeetsItsRule :=
  arithmeticRule_of_result (i := .add) (by simp) (fun _ => rfl) fun n1 n2 =>
    (BitVec.ofInt_natCast 256 (n1.toNat + n2.toNat)).symm

/-- Settles O28: a product of naturals is the same integer product. -/
theorem mulMeetsItsRule : Obligations.MulMeetsItsRule :=
  arithmeticRule_of_result (i := .mul) (by simp) (fun _ => rfl) fun n1 n2 =>
    (BitVec.ofInt_natCast 256 (n1.toNat * n2.toNat)).symm

/-- Settles O29: the model's difference is an integer one, with the earlier-pushed Word as minuend. -/
theorem subMeetsItsRule : Obligations.SubMeetsItsRule :=
  arithmeticRule_of_result (i := .sub) (by simp) (fun _ => rfl) fun _ _ => rfl

/-- The model tests the Word, the rule its value. -/
theorem wordDiv_eq_ofInt (x y : Word) :
    wordDiv x y = BitVec.ofInt 256 (if (y.toNat : Int) = 0 then 0 else (x.toNat : Int) / y.toNat) := by
  rw [wordDiv]
  by_cases hy : y = 0
  · rw [if_pos hy, if_pos (by simp [hy])]
    rfl
  · have hval : (y.toNat : Int) ≠ 0 := by exact_mod_cast (BitVec.toNat_pos_of_ne_zero hy).ne'
    rw [if_neg hy, if_neg hval, ← Int.natCast_ediv, BitVec.ofInt_natCast]

/-- Settles O30: a quotient of naturals is the same integer quotient, with the earlier-pushed Word as dividend. -/
theorem divMeetsItsRule : Obligations.DivMeetsItsRule :=
  arithmeticRule_of_result (i := .div) (by simp) (fun _ => rfl) fun n1 n2 => wordDiv_eq_ofInt n2 n1

/-! Two Words pushed are operands in push order (R90). -/

/-- What a PUSH32 with its immediate, gas and room there leaves. -/
def afterPush32 (v : Word) (s : State) : State :=
  { s with pc := s.pc + 33, gas := s.gas - s.cfg.gPushN, stack := s.stack ++ [v] }

theorem exec_push32_completes {s : State} (v : Word) (hgas : s.cfg.gPushN ≤ s.gas) (himm : s.pc + 33 ≤ s.codeLen)
    (hroom : s.stack.length < s.cfg.stackDepth) : exec (.push32 v) s = .next (afterPush32 v s) := by
  have hexec : exec (.push32 v) s = pushOp s.cfg.gPushN 32 v s := rfl
  have hcode : ¬ s.codeLen - (s.pc + 1) < 32 := by omega
  rw [hexec, pushOp_eq, if_neg (Nat.not_lt.mpr hgas), if_neg hcode, if_neg hroom.ne]
  rfl

/-- The Word pushed first is the second from top. -/
theorem exec_arithmetic_pushed {i : Instr} (hi : i = .add ∨ i = .mul ∨ i = .sub ∨ i = .div) {s : State} (x y : Word)
    (hgas : 2 * s.cfg.gPushN + staticCost s.cfg i ≤ s.gas) (hroom : s.stack.length + 2 ≤ s.cfg.stackDepth) :
    ∃ t : State, exec i (afterPush32 y (afterPush32 x s)) = .next t ∧ t.stack = s.stack ++ [arithResult i y x] ∧
      t.status = s.status ∧ t.pc = s.pc + 67 := by
  have hst : (afterPush32 y (afterPush32 x s)).stack = s.stack ++ [x, y] := by simp [afterPush32]
  have hleft : staticCost s.cfg i ≤ s.gas - s.cfg.gPushN - s.cfg.gPushN := by omega
  refine ⟨_, exec_arithmetic_completes hi hleft hst ?_, rfl, rfl, rfl⟩
  rw [hst, List.length_append]
  exact hroom

/-- Settles O54: both pushes complete, and the third instruction finds `x` below `y`. -/
theorem subtractsInPushOrder : Obligations.SubtractsInPushOrder := by
  intro s x y hgas hcode hroom
  rw [sp_eq] at hroom
  have hfirst : exec (.push32 x) s = .next (afterPush32 x s) :=
    exec_push32_completes x (by omega) (by omega) (by omega)
  have hpaid : s.cfg.gPushN ≤ s.gas - s.cfg.gPushN := by omega
  have hlen : (afterPush32 x s).stack.length < s.cfg.stackDepth := by
    rw [afterPush32, List.length_append]
    exact hroom
  have hsecond : exec (.push32 y) (afterPush32 x s) = .next (afterPush32 y (afterPush32 x s)) :=
    exec_push32_completes y hpaid hcode hlen
  have hsub : 2 * s.cfg.gPushN + 3 ≤ s.gas := by omega
  exact ⟨_, _, hfirst, hsecond, exec_arithmetic_pushed (i := .sub) (by simp) x y hsub hroom,
    exec_arithmetic_pushed (i := .div) (by simp) x y hgas hroom⟩

end Sys2Proof.Machine


/-! PROOF. The PUSH family (42_push): the Word pushed is the big-endian value of the code bytes after the opcode (R100), each
PUSHn meets its rule (R102 to R133), and a truncated PUSH is the same whatever immediate it was given. -/

namespace Sys2Proof.Machine

open Host (Outcome)

/-! The immediate bytes the decoder is given are those of the code space (30_encoding R49). -/

theorem take_decodeBytes (s : State) (a : Nat) {n m : Nat} (hnm : n ≤ m) :
    (decodeBytes s a m).take n = decodeBytes s a n := by
  refine List.ext_getElem? fun k => ?_
  rcases Nat.lt_or_ge k n with hk | hk
  · rw [List.getElem?_take_of_lt hk, getElem?_decodeBytes s m a k (hk.trans_le hnm), getElem?_decodeBytes s n a k hk]
  · simp [hk]

/-- Inside the code the sum over the code bytes is the sum over what the decoder is given. -/
theorem beValue_eq_beNat {s : State} {a n : Nat} (h : a + n ≤ s.codeLen) :
    beValue s a n = beNat (decodeBytes s a n) := by
  rw [← beSum_eq_beNat, beSum, beValue, length_decodeBytes]
  refine Finset.sum_congr rfl fun k hk => ?_
  have hkn : k < n := Finset.mem_range.mp hk
  have hbyte : codeByte s (a + k) = some (Memory.read s.code (a + k)) := codeByte_lt (by omega)
  rw [List.getD_eq_getElem?_getD, getElem?_decodeBytes s n a k hkn, hbyte, Option.getD_some, Option.getD_some]

theorem beWord_decodeBytes {s : State} {a n : Nat} (h : a + n ≤ s.codeLen) :
    beWord (decodeBytes s a n) = BitVec.ofNat 256 (beValue s a n) := by
  rw [beValue_eq_beNat h, beWord]

theorem toNat_beWord_decodeBytes {s : State} {a n : Nat} (h32 : n ≤ 32) :
    (beWord (decodeBytes s a n)).toNat = beNat (decodeBytes s a n) :=
  toNat_beWord ((length_decodeBytes s a n).trans_le h32)

theorem beNat_decodeBytes_lt (s : State) (a n : Nat) : beNat (decodeBytes s a n) < 2 ^ (8 * n) := by
  simpa [pow_256] using beNat_lt (decodeBytes s a n)

/-- At the opcode of PUSHn the step runs the PUSHn that carries the value of the next `n` bytes. -/
theorem step_push {n : Nat} {s : State} (h1 : 1 ≤ n) (h32 : n ≤ 32) (hr : s.status = .running)
    (hop : codeByte s s.pc = some (BitVec.ofNat 8 (0x5F + n))) :
    ∃ i : Instr, mkPush n (beWord (decodeBytes s (s.pc + 1) n)) = some i ∧ step s = exec i s := by
  obtain ⟨hp, -⟩ := codeByte_some hop
  have hmax : n ≤ maxLength - 1 := h32
  obtain ⟨i, hdecode, rfl, hv⟩ := decode_push_ok h1 h32 (hmax.trans_eq (length_decodeBytes s (s.pc + 1) _).symm)
  rw [take_decodeBytes s _ hmax] at hv
  exact ⟨i, hv ▸ mkPush_self h1, by rw [step_fetch hr hp, fetch_eq hop, hdecode]⟩

/-! What a PUSH does with its immediate, and what it does without. -/

/-- Where the length test fails, the Word is not used. -/
theorem pushOp_truncated {c n : Nat} {s : State} (v w : Word) (h : s.codeLen - (s.pc + 1) < n) :
    pushOp c n v s = pushOp c n w s := by
  simp only [pushOp_eq, if_pos h]

/-- The opcode alone tells how many immediate bytes follow it (30_encoding R47). -/
theorem immBytes_eq_of_opcode (i : Instr) : i.immBytes = i.opcode.toNat - 0x5F := by
  cases i <;> rfl

theorem staticCost_push {i : Instr} (h1 : 1 ≤ i.immBytes) (c : Config) :
    staticCost c i = if i.immBytes = 1 then 3 else c.gPushN := by
  cases i with
  | stop | add | mul | sub | div => simp [Instr.immBytes] at h1
  | _ => rfl

/-- Settles O36: inside the code the decoder's Word is the value of the code bytes, and past its end the Word is not used. -/
theorem pushFamilyStep : Obligations.PushFamilyStep := by
  intro n s h1 h32 hr hop
  obtain ⟨i, hi, hstep⟩ := step_push h1 h32 hr hop
  obtain ⟨rfl, hv⟩ := mkPush_inv h1 h32 hi
  rw [hstep, exec_eq_pushOp h1, staticCost_push h1, hv, ← pushOp_eq]
  by_cases htrunc : s.codeLen - (s.pc + 1) < i.immBytes
  · exact pushOp_truncated _ _ htrunc
  · rw [beWord_decodeBytes (by omega)]

/-- Settles O46: three of the four outcomes leave the stack, and the fourth appends the immediate. -/
theorem pushFrame : Obligations.PushFrame := by
  intro i s t h1 h
  refine ⟨exec_sameCode h, ?_⟩
  rw [exec_eq_pushOp h1, pushOp_eq] at h
  obtain rfl := Outcome.next.inj h
  split_ifs
  · exact ⟨fun _ _ => rfl, .inl ⟨rfl, rfl⟩, .inl rfl, .inr ⟨_, rfl⟩⟩
  · exact ⟨fun _ _ => rfl, .inl ⟨rfl, rfl⟩, .inr rfl, .inr ⟨_, rfl⟩⟩
  · exact ⟨fun _ _ => rfl, .inl ⟨rfl, rfl⟩, .inr rfl, .inr ⟨_, rfl⟩⟩
  · exact ⟨fun _ hk => List.getElem?_append_left hk, .inr ⟨rfl, Nat.add_assoc _ _ _⟩, .inr rfl, .inl rfl⟩

/-- Settles O53: the opcode fixes the cost and the length tested, and after a failed test the immediate is not used. -/
theorem truncatedPushIgnoresItsImmediate : Obligations.TruncatedPushIgnoresItsImmediate := by
  intro i j s hop htrunc
  have hlen : i.immBytes = j.immBytes := by rw [immBytes_eq_of_opcode, immBytes_eq_of_opcode, hop]
  have hcost : staticCost s.cfg i = staticCost s.cfg j := by
    rw [staticCost_eq_opcodeCost, staticCost_eq_opcodeCost, hop]
  have h1 : 1 ≤ i.immBytes := by omega
  rw [exec_eq_pushOp h1, exec_eq_pushOp (hlen ▸ h1), ← hlen, ← hcost]
  exact pushOp_truncated _ _ htrunc

/-! The rule of a PUSHn (R102 to R133), from its row of the opcode map and its cost. -/

theorem exec_of_mkPush {n : Nat} {v : Word} {i : Instr} (h1 : 1 ≤ n) (h32 : n ≤ 32) (hi : mkPush n v = some i)
    (s : State) : exec i s = pushOp (staticCost s.cfg i) n v s := by
  obtain ⟨rfl, rfl⟩ := mkPush_inv h1 h32 hi
  exact exec_eq_pushOp h1 s

/-- The PUSH that carries the value of `imm` is decoded from `imm` and encoded as `imm` (30_encoding R47, R49). -/
theorem decode_encode_of_mkPush {imm : List Byte} {i : Instr} (h1 : 1 ≤ imm.length) (h32 : imm.length ≤ 32)
    (hi : mkPush imm.length (beWord imm) = some i) (rest : List Byte) :
    decode (BitVec.ofNat 8 (0x5F + imm.length) :: (imm ++ rest)) = .ok i rest ∧
      encode i = BitVec.ofNat 8 (0x5F + imm.length) :: imm := by
  obtain ⟨hn, hv⟩ := mkPush_inv h1 h32 hi
  have hencode : encode i = BitVec.ofNat 8 (0x5F + imm.length) :: imm := by
    rw [encode_of_imm_eq_beWord hn.symm hv, opcode_push (hn.symm ▸ h1), hn]
  have hdecode := decode_encode (wf_of_imm_eq_beWord hn.symm hv) rest
  rw [hencode] at hdecode
  exact ⟨hdecode, hencode⟩

/-- A row of the PUSH table is `pushOp` at the row's length and cost, and so meets the rule of 42_push R100. -/
theorem pushRule_of_mkPush {op : Byte} {n : Nat} {i : Word → Instr} {cost : Config → Nat}
    (hop : op = BitVec.ofNat 8 (0x5F + n)) (h1 : 1 ≤ n) (h32 : n ≤ 32) (hmk : ∀ v, mkPush n v = some (i v))
    (hcost : ∀ c v, staticCost c (i v) = cost c) : PushRule op n i cost := by
  have hexec : ∀ v s, exec (i v) s = pushOp (cost s.cfg) n v s := fun v s => by
    rw [exec_of_mkPush h1 h32 (hmk v), hcost]
  refine ⟨fun imm rest hlen => ?_, fun s hr hbyte => ?_, fun v s hgas => ?_, fun v s hgas htrunc => ?_,
    fun v s hgas hcode hfull => ?_, fun v s hgas hcode hroom => ?_⟩
  · subst hop hlen
    rw [beSum_eq_beNat]
    exact decode_encode_of_mkPush h1 h32 (hmk (beWord imm)) rest
  · obtain ⟨j, hj, hstep⟩ := step_push h1 h32 hr (hop ▸ hbyte)
    obtain rfl := Option.some.inj ((hmk _).symm.trans hj)
    refine ⟨_, hstep, fun hcode => ?_⟩
    rw [toNat_beWord_decodeBytes h32, beValue_eq_beNat hcode]
    exact ⟨rfl, beNat_decodeBytes_lt s _ n⟩
  · rw [hexec, pushOp_eq, if_pos hgas]
  · rw [hexec, pushOp_eq, if_neg (Nat.not_lt.mpr hgas), if_pos htrunc]
  · rw [hexec, pushOp_eq, if_neg (Nat.not_lt.mpr hgas), if_neg (by omega), if_pos hfull]
  · rw [hexec, pushOp_eq, if_neg (Nat.not_lt.mpr hgas), if_neg (by omega), if_neg hroom.ne]

/-- The rule of a row from PUSH2 on, whose cost is G_PUSHN. -/
theorem pushNRule {op : Byte} {n : Nat} {i : Word → Instr} (hop : op = BitVec.ofNat 8 (0x5F + n)) (h2 : 2 ≤ n)
    (h32 : n ≤ 32) (hmk : ∀ v, mkPush n v = some (i v)) : PushRule op n i pushNCost := by
  have h1 : 1 ≤ n := by omega
  refine pushRule_of_mkPush hop h1 h32 hmk fun c v => ?_
  obtain ⟨hn, -⟩ := mkPush_inv h1 h32 (hmk v)
  exact staticCost_of_two_le_immBytes (hn.symm ▸ h2) c

/-- Settles O32: PUSH1's row, with its own cost. -/
theorem push1MeetsItsRule : Obligations.Push1MeetsItsRule :=
  pushRule_of_mkPush rfl (by decide) (by decide) (fun _ => rfl) fun _ _ => rfl

/-- Settles O33: eleven rows of the PUSH table. -/
theorem push2To12MeetTheirRules : Obligations.Push2To12MeetTheirRules := by
  refine ⟨rfl, ?_, ?_, ?_, ?_, ?_, ?_, ?_, ?_, ?_, ?_, ?_⟩
  all_goals exact pushNRule rfl (by decide) (by decide) fun _ => rfl

/-- Settles O34: ten rows of the PUSH table. -/
theorem push13To22MeetTheirRules : Obligations.Push13To22MeetTheirRules := by
  refine ⟨rfl, ?_, ?_, ?_, ?_, ?_, ?_, ?_, ?_, ?_, ?_⟩
  all_goals exact pushNRule rfl (by decide) (by decide) fun _ => rfl

/-- Settles O35: the last ten rows of the PUSH table. -/
theorem push23To32MeetTheirRules : Obligations.Push23To32MeetTheirRules := by
  refine ⟨rfl, ?_, ?_, ?_, ?_, ?_, ?_, ?_, ?_, ?_, ?_⟩
  all_goals exact pushNRule rfl (by decide) (by decide) fun _ => rfl

end Sys2Proof.Machine


/-! PROOF. STOP and halting (43_control): STOP meets its rule (R140), success is reached by STOP and at the end of the code alone
(R141), a halted machine does not change (R142), and `pc` only moves forward, past the opcode or past the instruction (R143). -/

namespace Sys2Proof.Machine

/-- A running machine at the byte 0x00 halts with success, one past that byte. -/
theorem step_stop {s : State} (hr : s.status = .running) (hop : codeByte s s.pc = some 0x00) :
    step s = .next { s with pc := s.pc + 1, status := .success } :=
  (step_of_opcode (i := .stop) rfl hr hop).trans (exec_stop_eq s)

/-- Settles O31: STOP's row of the encoding tables, and its meaning, which no gas and no stack can make fail. -/
theorem stopMeetsItsRule : Obligations.StopMeetsItsRule :=
  ⟨⟨rfl, decode_encode (i := .stop) (wf_of_immBytes_eq_zero rfl)⟩,
    fun _ => step_of_opcode (i := .stop) rfl, exec_stop_eq⟩

/-- Settles O47: STOP's next state differs from `s` in `pc` and `status`. -/
theorem stopFrame : Obligations.StopFrame := by
  intro s t h
  cases (exec_stop_eq s).symm.trans h
  exact ⟨exec_sameCode h, rfl, rfl⟩

/-- Settles O18: a status other than Running selects the identity. -/
theorem haltedStatesAreTerminal : Obligations.HaltedStatesAreTerminal := fun _ => step_halted

/-! The two ways to `Halted(Success)` (R141). -/

/-- The byte at `pc` is the opcode of the fetched instruction. -/
theorem codeByte_of_fetch {s : State} {i : Instr} (hf : fetch s = .instr i) : codeByte s s.pc = some i.opcode := by
  obtain ⟨op, rest, hop, hdecode⟩ := fetch_instr hf
  obtain ⟨hbytes, -⟩ := encodeInvertsDecode _ _ _ hdecode
  obtain ⟨rfl, -⟩ := List.cons.inj hbytes
  exact hop

/-- No instruction but STOP ends with success: what completes has the status of its halt flag, what fails has its kind. -/
theorem eq_stop_of_exec_success {i : Instr} {s t : State} (hr : s.status = .running) (h : exec i s = .next t)
    (ht : t.status = .success) : i = .stop := by
  obtain ⟨hflag, hstop⟩ := haltFlagIsStopsAlone i s t hr h (by simp [ht])
  by_contra hne
  rw [if_neg (mt hstop.mp hne), ht] at hflag
  cases hflag

theorem endOfCode_or_stop_of_step_success {s t : State} (hr : s.status = .running) (h : step s = .next t)
    (ht : t.status = .success) : s.codeLen ≤ s.pc ∨ codeByte s s.pc = some 0x00 := by
  rcases step_cases h with ⟨hend, -⟩ | ⟨-, hp, -⟩ | ⟨-, -, -, rfl⟩ | ⟨i, -, -, hf, hexec⟩
  · exact absurd hr hend
  · exact .inl hp
  · cases ht
  · obtain rfl := eq_stop_of_exec_success hr hexec ht
    exact .inr (codeByte_of_fetch hf)

/-- Settles O42: the end of the code and the byte 0x00 each fix the next state, and no other step succeeds. -/
theorem successIsReachedInTwoWays : Obligations.SuccessIsReachedInTwoWays := by
  refine ⟨fun s t hr h => ?_, fun h hempty => ?_⟩
  · have hend : s.codeLen ≤ s.pc → t = { s with status := .success } := fun hp =>
      Host.Outcome.next.inj (h.symm.trans (step_endOfCode hr hp))
    have hstop : codeByte s s.pc = some 0x00 → t = { s with pc := s.pc + 1, status := .success } := fun hop =>
      Host.Outcome.next.inj (h.symm.trans (step_stop hr hop))
    refine ⟨⟨endOfCode_or_stop_of_step_success hr h, ?_⟩, hend, hstop⟩
    rintro (hp | hop)
    · rw [hend hp]
    · rw [hstop hop]
  · have hp : (resetWith h).codeLen ≤ (resetWith h).pc := by simp [hempty]
    exact ⟨_, step_endOfCode rfl hp, rfl, rfl, rfl⟩

/-! The writes of `pc` (R143). -/

/-- The fetch passes the opcode byte; only a PUSH that completes passes more, its immediate. -/
theorem exec_pc_cases {i : Instr} {s t : State} (h : exec i s = .next t) : t.pc = s.pc + 1 ∨ t.pc = s.pc + i.length := by
  rcases exec_cases h with ⟨-, rfl⟩ | ⟨-, -, rfl⟩ | ⟨-, -, harith⟩ | ⟨-, -, hpush⟩
  · exact .inl rfl
  · exact .inl rfl
  · rcases harith with ⟨-, rfl⟩ | ⟨_, _, _, -, -, rfl⟩ | ⟨_, _, _, -, -, rfl⟩
    all_goals exact .inl rfl
  · rcases hpush with ⟨-, rfl⟩ | ⟨-, -, rfl⟩ | ⟨-, -, rfl⟩
    · exact .inl rfl
    · exact .inl rfl
    · exact .inr (Nat.add_assoc _ _ _)

theorem exec_running_pc {i : Instr} {s t : State} (hr : s.status = .running) (h : exec i s = .next t)
    (ht : t.status = .running) : t.pc = s.pc + i.length := by
  rcases completes_or_failsWith hr h with hdone | ⟨k, hfail⟩
  · exact hdone.pc
  · cases hfail.status.symm.trans ht

/-- Settles O49: every instruction passes its opcode or its whole length, and one that leaves the machine running has completed. -/
theorem pcMovesForwardByInstructionLength : Obligations.PcMovesForwardByInstructionLength :=
  fun _ _ _ h => ⟨exec_pc_cases h, fun hr => exec_running_pc hr h⟩

end Sys2Proof.Machine


/-! PROOF. The failures (60_exceptions): which instruction raises which kind (R150) and what it found, gas being tested before
all else (R157); the illegal opcode byte (R153); and the one field a failure writes (R156). -/

namespace Sys2Proof.Machine

/-- Settles O38: each field of the state is kept by `raise` but `status`. -/
theorem raiseWritesStatusOnly : Obligations.RaiseWritesStatusOnly := fun k s =>
  ⟨raise_status k s, raise_pc k s, raise_gas k s, raise_stack k s,
    raise_cfg k s, raise_codeLen k s, raise_code k s, fun _ => rfl⟩

/-- A running machine at an illegal opcode byte passes it and fails, whatever its gas (R153). -/
theorem step_illegal {s : State} {op : Byte} (hr : s.status = .running) (hop : codeByte s s.pc = some op)
    (hill : decodeOpcode op.toNat = none) : step s = .next (illegalStep s) := by
  obtain ⟨hp, -⟩ := codeByte_some hop
  rw [step_fetch hr hp, fetch_illegal hop hill]

/-- The rows of the opcode map cover 37 of the 256 bytes (30_encoding R53). -/
theorem length_illegal_opcodes : ((List.range 256).filter fun op => decodeOpcode op = none).length = 219 := by
  rfl

/-- Settles O17: the bytes named are those no row of the opcode map covers. -/
theorem illegalOpcodeFails : Obligations.IllegalOpcodeFails :=
  ⟨fun _ _ hr hop hrange => step_illegal hr hop (decodeOpcode_eq_none_iff.mpr hrange), length_illegal_opcodes⟩

theorem ne_stop_of_haltFlag {i : Instr} (h : haltFlag i = false) : i ≠ .stop := by
  rintro rfl
  cases h

/-- Every way an instruction can fail: short of gas before anything else, and then by the test of its own form. Arithmetic
overflows the stack only outside 92 D17's domain (log entry 12). -/
theorem exec_failure_cases {i : Instr} {s t : State} {k : FailureKind} (hr : s.status = .running) (h : exec i s = .next t)
    (hk : t.status = .failure k) :
    (i ≠ .stop ∧ s.gas < staticCost s.cfg i ∧ k = .outOfGas) ∨
    ((i = .add ∨ i = .mul ∨ i = .sub ∨ i = .div) ∧ staticCost s.cfg i ≤ s.gas ∧
      (k = .stackUnderflow ∨ k = .stackOverflow ∧ s.cfg.stackDepth < s.stack.length)) ∨
    (1 ≤ i.immBytes ∧ staticCost s.cfg i ≤ s.gas ∧ (k = .unexpectedEndOfBytecode ∨ k = .stackOverflow)) := by
  rcases exec_cases h with ⟨-, rfl⟩ | ⟨hi, hgas, rfl⟩ | ⟨hi, hcost, harith⟩ | ⟨hi, hcost, hpush⟩
  · cases hk
  · cases hk
    exact .inl ⟨hi, hgas, rfl⟩
  · refine .inr (.inl ⟨hi, hcost, ?_⟩)
    rcases harith with ⟨-, rfl⟩ | ⟨below, n2, n1, hst, hfull, rfl⟩ | ⟨_, _, _, -, -, rfl⟩
    · cases hk
      exact .inl rfl
    · cases hk
      exact .inr ⟨rfl, by simp [hst, hfull]⟩
    · cases hr.symm.trans hk
  · refine .inr (.inr ⟨hi, hcost, ?_⟩)
    rcases hpush with ⟨-, rfl⟩ | ⟨-, -, rfl⟩ | ⟨-, -, rfl⟩
    · cases hk
      exact .inl rfl
    · cases hk
      exact .inr rfl
    · cases hr.symm.trans hk

/-- Settles O41: out of gas is the one failure below the cost, and each form raises the kinds of its own tests. -/
theorem whoRaisesWhichFailure : Obligations.WhoRaisesWhichFailure := by
  intro i s t k hr h hk
  rcases exec_failure_cases hr h hk with ⟨hi, hgas, rfl⟩ | ⟨hi, hcost, hkind⟩ | ⟨hi, hcost, hkind⟩
  · simp [hi, hgas]
  · have hstop := ne_stop_of_haltFlag (haltFlag_of_arithmetic hi)
    rcases hkind with rfl | ⟨rfl, hdeep⟩
    · simp [hi, hstop, hcost]
    · simp [hstop, hcost, hdeep]
  · have hstop := ne_stop_of_haltFlag (haltFlag_of_push hi)
    rcases hkind with rfl | rfl <;> simp [hi, hstop, hcost]

end Sys2Proof.Machine
